-- ==== Sys2Proof/Word.lean ====
section
/-! DEFINITION. The words that cross the block's ports and the alphabet index (00_scope.md rules R7, R9, R15, R17). -/

namespace Sys2Proof

/-- A command word or a result word: 32 bits, bit 0 the least significant (R15, R17, R70, R80). -/
abbrev Word := BitVec 32

/-- An 8-bit character code, as a symbol crosses the ports (R9). -/
abbrev Byte := BitVec 8

/-- An alphabet index, 0 to 25, `A` being 0 (R7, R8). No rule ever holds an index or an offset outside this range
(R23, R51), so the range is in the type. Log 7. -/
abbrev Idx := Fin 26

end Sys2Proof
end

