-- ==== Sys2Proof/Syntax.lean ====
section
/-! DEFINITION. The seven commands of RSP-CMD1, one constructor per row of spec/opcode_table.json (30_encoding.md R72). -/

namespace Sys2Proof

/-- CNT, the symbol-count class (R74): how many characters the host presented. The fourth value, 0b11, is no operand: a word
that holds it is illegal (R77). -/
inductive Count where
  | zero      -- 0b00: the empty string
  | one       -- 0b01: exactly one character, whose code is CHAR
  | several   -- 0b10: two or more characters; CHAR is not used
  deriving DecidableEq, Repr

/-- A command with its operands: `k` is RIDX (R76), `cnt` and `char` are CNT and CHAR (R74, R75). CHAR is kept whatever CNT
is, so that encoding gives the word back. -/
inductive Instr where
  | pbSwap  (cnt : Count) (char : Byte)             -- PB_SWAP, class S
  | rfSwap  (cnt : Count) (char : Byte)             -- RF_SWAP, class S
  | rotFwd  (k : Nat) (cnt : Count) (char : Byte)   -- ROT_FWD, class RS
  | rotBwd  (k : Nat) (cnt : Count) (char : Byte)   -- ROT_BWD, class RS
  | rotStep (k : Nat)                               -- ROT_STEP, class R
  | engStep                                         -- ENG_STEP, class N
  | process (cnt : Count) (char : Byte)             -- PROCESS, class S
  deriving DecidableEq, Repr

end Sys2Proof
end

