-- ==== Sys2Proof/WellFormed.lean ====
section
/-! DEFINITION. Which command terms a command word can hold: the rotor index fits the 8-bit field RIDX (R70, R76). Every
other operand's type already has exactly the field's legal values. -/

namespace Sys2Proof

/-- The rotor index of a command of class RS or R; `none` for the other classes (R73). -/
def Instr.rotorIndex : Instr → Option Nat
  | .pbSwap _ _ => none
  | .rfSwap _ _ => none
  | .rotFwd k _ _ => some k
  | .rotBwd k _ _ => some k
  | .rotStep k => some k
  | .engStep => none
  | .process _ _ => none

/-- `k` is in 0..255, the values of RIDX (R70, R76). -/
def Instr.wellFormed (i : Instr) : Bool :=
  match i.rotorIndex with
  | none => true
  | some k => decide (k < 256)

end Sys2Proof
end

