-- ==== Sys2Proof/Decode.lean ====
section
/-! DEFINITION. The command word: its fields (R70), the opcode map (R72), the operand classes (R73), decoding (R77), the
opcode table with match and mask (R87), and the encoder (R84). Decoding reads the word alone; the rotor-index check of R78
is the machine's. -/

namespace Sys2Proof

/-! ### Fields of the command word (R70) -/

/-- CW[31:28]. -/
def opField (cw : Word) : BitVec 4 := cw.extractLsb' 28 4
/-- CW[27:24], reserved. -/
def rsv1Field (cw : Word) : BitVec 4 := cw.extractLsb' 24 4
/-- CW[23:16], the rotor index. -/
def ridxField (cw : Word) : BitVec 8 := cw.extractLsb' 16 8
/-- CW[15:10], reserved. -/
def rsv2Field (cw : Word) : BitVec 6 := cw.extractLsb' 10 6
/-- CW[9:8], the symbol-count class. -/
def cntField (cw : Word) : BitVec 2 := cw.extractLsb' 8 2
/-- CW[7:0], the symbol code. -/
def charField (cw : Word) : Byte := cw.extractLsb' 0 8

/-! ### The opcode map and the operand classes (R72, R73) -/

/-- The seven mnemonics of the opcode map (R72). -/
inductive Mnemonic where
  | pbSwap | rfSwap | rotFwd | rotBwd | rotStep | engStep | process
  deriving DecidableEq, Repr

/-- The operand classes (R73): one symbol; rotor and symbol; rotor only; no operand. -/
inductive OperandClass where
  | S | RS | R | N
  deriving DecidableEq, Repr

/-- The opcode map (R72): 0x0 and 0x8 to 0xF are reserved. -/
def mnemonicOf (op : BitVec 4) : Option Mnemonic :=
  match op.toNat with
  | 1 => some .pbSwap
  | 2 => some .rfSwap
  | 3 => some .rotFwd
  | 4 => some .rotBwd
  | 5 => some .rotStep
  | 6 => some .engStep
  | 7 => some .process
  | _ => none

/-- The opcode number of a mnemonic (R72). -/
def Mnemonic.opcode : Mnemonic → Nat
  | .pbSwap => 1
  | .rfSwap => 2
  | .rotFwd => 3
  | .rotBwd => 4
  | .rotStep => 5
  | .engStep => 6
  | .process => 7

/-- The operand class of a mnemonic (R72). -/
def Mnemonic.operandClass : Mnemonic → OperandClass
  | .pbSwap => .S
  | .rfSwap => .S
  | .rotFwd => .RS
  | .rotBwd => .RS
  | .rotStep => .R
  | .engStep => .N
  | .process => .S

/-- The class names a rotor: RIDX is used (R73). -/
def OperandClass.usesRotor : OperandClass → Bool
  | .S => false
  | .RS => true
  | .R => true
  | .N => false

/-- The class takes a symbol: CNT and CHAR are used (R73). -/
def OperandClass.usesSymbol : OperandClass → Bool
  | .S => true
  | .RS => true
  | .R => false
  | .N => false

/-- The mnemonic of a command term. -/
def Instr.mnemonic : Instr → Mnemonic
  | .pbSwap _ _ => .pbSwap
  | .rfSwap _ _ => .rfSwap
  | .rotFwd _ _ _ => .rotFwd
  | .rotBwd _ _ _ => .rotBwd
  | .rotStep _ => .rotStep
  | .engStep => .engStep
  | .process _ _ => .process

/-! ### Decoding (R77) -/

/-- Why a word is no command. `decode` of R77 has one answer, IllegalCommand, and gives no cause beyond it. -/
inductive DecodeReject where
  | illegalCommand
  deriving DecidableEq, Repr

/-- CNT as the symbol-count class; 0b11 is reserved (R74). -/
def countOf (cnt : BitVec 2) : Option Count :=
  match cnt.toNat with
  | 0 => some .zero
  | 1 => some .one
  | 2 => some .several
  | _ => none

/-- The command of a mnemonic and the word's operand fields: the last line of R77. -/
def assembleInstr (m : Mnemonic) (k : Nat) (cnt : Count) (char : Byte) : Instr :=
  match m with
  | .pbSwap => .pbSwap cnt char
  | .rfSwap => .rfSwap cnt char
  | .rotFwd => .rotFwd k cnt char
  | .rotBwd => .rotBwd k cnt char
  | .rotStep => .rotStep k
  | .engStep => .engStep
  | .process => .process cnt char

/-- The "must be" fields of R73 hold what they must: a class that names no rotor has RIDX = 0, a class that takes no symbol
has CNT = 0b00 and CHAR = 0. -/
def mustBeFieldsOk (cls : OperandClass) (cw : Word) : Bool :=
  (cls.usesRotor || ridxField cw == 0) &&
  (cls.usesSymbol || (cntField cw == 0 && charField cw == 0))

/-- Word-level decode, check by check as R77 lists them. -/
def decode (cw : Word) : Except DecodeReject Instr :=
  match mnemonicOf (opField cw) with
  | none => .error .illegalCommand
  | some m =>
    if rsv1Field cw ≠ 0 ∨ rsv2Field cw ≠ 0 then .error .illegalCommand
    else
      match countOf (cntField cw) with
      | none => .error .illegalCommand
      | some cnt =>
        if mustBeFieldsOk m.operandClass cw then
          .ok (assembleInstr m (ridxField cw).toNat cnt (charField cw))
        else .error .illegalCommand

/-! ### The opcode table with match and mask (section 5 of 30_encoding.md, R87) -/

/-- One row of the opcode table. `pattern` is the table's "match". -/
structure OpcodeRow where
  mnemonic : Mnemonic
  pattern  : Word
  mask     : Word
  deriving DecidableEq, Repr

/-- The table, row by row. -/
def opcodeTable : List OpcodeRow :=
  [ ⟨.pbSwap,  0x10000000, 0xFFFFFC00⟩,
    ⟨.rfSwap,  0x20000000, 0xFFFFFC00⟩,
    ⟨.rotFwd,  0x30000000, 0xFF00FC00⟩,
    ⟨.rotBwd,  0x40000000, 0xFF00FC00⟩,
    ⟨.rotStep, 0x50000000, 0xFF00FFFF⟩,
    ⟨.engStep, 0x60000000, 0xFFFFFFFF⟩,
    ⟨.process, 0x70000000, 0xFFFFFC00⟩ ]

/-- The row's "also illegal when" column, for a block of `nrot` rotors: CNT = 0b11 for the rows that take a symbol,
RIDX >= NROT for the rows that name a rotor. -/
def OpcodeRow.alsoIllegal (nrot : Nat) (row : OpcodeRow) (cw : Word) : Bool :=
  (row.mnemonic.operandClass.usesSymbol && cntField cw == 3) ||
  (row.mnemonic.operandClass.usesRotor && decide (nrot ≤ (ridxField cw).toNat))

/-- Row selection (R87). -/
def OpcodeRow.selects (nrot : Nat) (row : OpcodeRow) (cw : Word) : Bool :=
  (cw &&& row.mask) == row.pattern && !row.alsoIllegal nrot cw

/-! ### The encoder (R84) -/

/-- CNT's code (R74). -/
def Count.code : Count → Nat
  | .zero => 0
  | .one => 1
  | .several => 2

/-- RIDX of a command; 0 where the class does not use it (R73). -/
def Instr.ridx (i : Instr) : Nat := i.rotorIndex.getD 0

/-- CNT and CHAR of a command; both 0 where the class takes no symbol (R73). -/
def Instr.symbolOperand : Instr → Count × Byte
  | .pbSwap cnt char => (cnt, char)
  | .rfSwap cnt char => (cnt, char)
  | .rotFwd _ cnt char => (cnt, char)
  | .rotBwd _ cnt char => (cnt, char)
  | .rotStep _ => (.zero, 0)
  | .engStep => (.zero, 0)
  | .process cnt char => (cnt, char)

/-- `(OP << 28) + (RIDX << 16) + (CNT << 8) + CHAR` (R84). -/
def encode (i : Instr) : Word :=
  BitVec.ofNat 32
    ((i.mnemonic.opcode <<< 28) + (i.ridx <<< 16) + (i.symbolOperand.1.code <<< 8) + i.symbolOperand.2.toNat)

/-! ### The word as the opcode table numbers its bits -/

/-- The command word whose bits are `w`, of which the table gives `nbits`; the bits above them are 0. The word crosses the
command port whole: no byte order arises (R54). Log 13. -/
def tableWord (nbits w : Nat) : Option Word :=
  if w % 2 ^ nbits < 2 ^ 32 then some (BitVec.ofNat 32 (w % 2 ^ nbits)) else none

/-- What `decode` reads from the table's word; `none` where it rejects it. -/
def decodeTableWord (nbits w : Nat) : Option Instr :=
  match tableWord nbits w with
  | none => none
  | some cw =>
    match decode cw with
    | .ok i => some i
    | .error _ => none

end Sys2Proof
end

