-- ==== Sys2Proof/Config.lean ====
section
/-! DEFINITION. What is fixed for every block, and the free value of the model. The numbers are the spec's; the seeded
shuffle GEN_PERM (R16) is no constant here: the construction from seeds takes it as an argument (Machine/Seeds.lean, log 10). -/

namespace Sys2Proof.Config

/-- NROT_MAX: the largest rotor count (R10). -/
def nrotMax : Nat := 256

/-- The largest plugboard pair count, and the reflector's pair count (R13, R14). -/
def pairMax : Nat := 13

/-- The code of the symbol `A`, index 0 (R9). -/
def symbolBase : Nat := 0x41

/-- FREE VALUE (log 8). What the inverse lookup gives where a table holds no entry, or several, equal to the index looked up.
The spec states the lookup for a bijection only (R53), and no valid reset loads another table (R205 V2): nothing is known
of this value. -/
opaque strayInverse : Vector Idx 26 → Idx → Idx

end Sys2Proof.Config
end

