-- ==== Sys2Proof/Machine/State.lean ====
section
/-! DEFINITION. The state of one block (10_state.md), the accesses a host presents to its ports, the words it answers, and
the reasons a step can stop. Plain data throughout. -/

namespace Sys2Proof.Machine

/-! ### The configuration stores and the offset registers -/

/-- A table store: 26 entries, entry i an index (R11, R25 to R27). -/
abbrev Table := Vector Idx 26

/-- Rotor k of the sequence: its permutation table `T_k` (R27) and its offset register `OFS[k]` (R22, R120). -/
structure Rotor where
  table : Table
  ofs   : Idx
  deriving DecidableEq, Repr

/-- What exists while CFGST is READY: the rotors in contact order, rotor 0 first (R28, R140), the plugboard map `PB` (R25)
and the reflector map `RF` (R26). NROT (R28) is the number of rotors, stored once as the list's length (log 9). -/
structure Store where
  rotors : List Rotor
  pb     : Table
  rf     : Table
  deriving DecidableEq, Repr

/-- CFGST (R21): UNCONFIGURED, where the stores and offsets hold no value, or READY, where they do. -/
inductive CfgSt where
  | unconfigured
  | ready (store : Store)
  deriving DecidableEq, Repr

/-! ### What crosses the ports -/

/-- The configuration record the reset port takes (R200). Its numbers are unchecked integers: reset checks them (R205). -/
structure Cfg where
  nrot  : Int
  table : List (List Int)
  shift : List Int
  refl  : List (Int × Int)
  plug  : List (Int × Int)
  deriving DecidableEq, Repr

/-- One thing the outside does to the block. -/
inductive Access where
  /-- A word on the command port (R70). -/
  | command (cw : Word)
  /-- A record on the reset port (R200, R204). -/
  | reset (cfg : Cfg)
  /-- Power is applied (R21, R189). Log 6. -/
  | powerOn
  /-- The ports are driven again before the previous result has been returned: overlapping commands, a second host without
  mutual exclusion, a reset during a command (R220). Log 5. -/
  | unserialised
  deriving DecidableEq, Repr

/-- A word the block answers, with the port it is answered on: the result port for a command (R80), the reset port for a
reset (R204). -/
inductive Answer where
  | resultPort (rw : Word)
  | resetPort (rw : Word)
  deriving DecidableEq, Repr

/-- The errors (R173 to R177). -/
inductive Err where
  | invalidInput
  | invalidConfiguration
  | illegalCommand
  | notConfigured
  deriving DecidableEq, Repr

/-! ### Why a step can stop -/

/-- Nothing stops the machine: every error is a status of the result word, and the next command is performed normally
(R170, R172). No constructor. Log 14. -/
inductive Fault where
  deriving DecidableEq, Repr

/-- Why the model has no next state. -/
inductive Refusal where
  /-- Raised by `exec` for an instruction that has no meaning yet. Safe: the model stops where the hardware goes on. -/
  | notModelled (mnemonic : String)
  /-- Raised by `step` when the host does not serialise its accesses: "a model has no run for it and must refuse it" (R220).
  Safe: the model stops where the hardware does something the spec does not give. -/
  | unserialisedUse
  /-- Raised by the host's loop PROCESS_MANY if a command has returned no result word. Every command returns one (R80), so
  nothing raises it (`Sys2Proof.Machine.execute_answers`). Safe. -/
  | noResultReturned
  deriving DecidableEq, Repr

/-! ### The state -/

/-- The block's state (R20) and the model's two port fields. -/
structure State where
  /-- CFGST with the stores and offset registers that exist while it is READY (R20 to R28). -/
  cfgst : CfgSt
  /-- The model's own: the accesses the host has still to present, oldest first (R30, R58). Log 2. -/
  hostQueue : List Access
  /-- The model's own: the word answered last (R33: no rule reads it). Log 3. -/
  answer : Option Answer
  deriving DecidableEq, Repr

/-- Power-on, before any reset: UNCONFIGURED with nothing else (R21, R208). Log 1. -/
def State.reset : State :=
  { cfgst := .unconfigured, hostQueue := [], answer := none }

end Sys2Proof.Machine
end

