-- ==== Sys2Proof/Machine/Flags.lean ====
section
/-! DEFINITION. The result word (30_encoding.md R80 to R83). The block has no flag register: the carry of a rotor step is a
field of this word and nothing else (R29). -/

namespace Sys2Proof.Machine

/-- The STATUS code of an error; 0 is OK, and 5 to 15 are never produced (R81). -/
def Err.code : Err → Nat
  | .invalidInput => 1
  | .invalidConfiguration => 2
  | .illegalCommand => 3
  | .notConfigured => 4

/-- The fields a command drives with STATUS = OK; a field it does not drive is 0 (R82, R83). -/
structure Reply where
  sym   : Byte := 0
  carry : Bool := false
  deriving DecidableEq, Repr

/-- The result word of STATUS = OK (R80, R82). -/
def Reply.word (r : Reply) : Word :=
  BitVec.ofNat 32 ((r.carry.toNat <<< 8) + r.sym.toNat)

/-- The result word of an error: `zext_32(code(E) << 28)` (R172). -/
def Err.word (e : Err) : Word := BitVec.ofNat 32 (e.code <<< 28)

/-- RW[31:28], as the host reads it. -/
def statusField (rw : Word) : BitVec 4 := rw.extractLsb' 28 4
/-- RW[27:9], always 0 (R83). -/
def zeroField (rw : Word) : BitVec 19 := rw.extractLsb' 9 19
/-- RW[8]. -/
def carryField (rw : Word) : BitVec 1 := rw.extractLsb' 8 1
/-- RW[7:0]. -/
def symField (rw : Word) : Byte := rw.extractLsb' 0 8

end Sys2Proof.Machine
end

