-- ==== Sys2Proof/Machine/Operands.lean ====
section
/-! DEFINITION. The operands of a command: the symbol operand and its check (R76, R100, R101), the rotor operand and its
check (R78), and the index arithmetic modulo 26 (R17). -/

namespace Sys2Proof.Machine

/-- `sym(i)`: the symbol code of an index (R9, R18). -/
def sym (i : Idx) : Byte := BitVec.ofNat 8 (Config.symbolBase + i.val)

/-- `check_sym` and the index formed after it (R76, R101): one character, `A` to `Z`, no case folding. -/
def checkSym (cnt : Count) (char : Byte) : Except Err Idx :=
  if cnt ≠ .one then .error .invalidInput
  else if h : 0x41 ≤ char.toNat ∧ char.toNat ≤ 0x5A then .ok ⟨char.toNat - 0x41, by omega⟩
  else .error .invalidInput

/-- A command that takes a symbol goes on with its index, or ends with InvalidInput (R100, R101). -/
def withSym {α : Type} (cnt : Count) (char : Byte) (f : Idx → Except Err α) : Except Err α :=
  match checkSym cnt char with
  | .error e => .error e
  | .ok i => f i

/-- A command that names a rotor goes on with rotor k, or ends with IllegalCommand where `k >= NROT` (R78). -/
def withRotor {α : Type} (k : Nat) (st : Store) (f : Rotor → Except Err α) : Except Err α :=
  match st.rotors[k]? with
  | none => .error .illegalCommand
  | some r => f r

/-- `(i + o) mod 26` (R17, R121). -/
def addMod (i o : Idx) : Idx := ⟨(i.val + o.val) % 26, by omega⟩

/-- `(j - o) mod 26`, the floor modulo: in 0..25 also where `j < o` (R17, R123). -/
def subMod (j o : Idx) : Idx := ⟨(((j.val : Int) - (o.val : Int)) % 26).toNat, by omega⟩

end Sys2Proof.Machine
end

