-- ==== Sys2Proof/Machine/Ops.lean ====
section
/-! DEFINITION. The shared operations: the views of the state, the reads of the stores (20_memory.md), the rotor primitives
(R121, R123, R126), the pipeline (R142), the odometer (R145), and the execution skeleton with the raising of an error
(R171, R172). -/

namespace Sys2Proof.Machine

/-! ### Views of the state -/

/-- NROT (R28). -/
def Store.nrot (st : Store) : Nat := st.rotors.length

/-- The offset registers in rotor order (R22). -/
def Store.offsets (st : Store) : List Idx := st.rotors.map Rotor.ofs

/-- The rotor tables in rotor order (R27). -/
def Store.tables (st : Store) : List Table := st.rotors.map Rotor.table

/-- The stores and registers, where they hold a value (R21). -/
def State.store? (s : State) : Option Store :=
  match s.cfgst with
  | .unconfigured => none
  | .ready st => some st

/-- What a model's observation may read of the offsets (R24, R188); no command returns it. -/
def State.offsets? (s : State) : Option (List Idx) := s.store?.map Store.offsets

/-! ### Reads of the stores -/

/-- `MemRead(T, i)`, and equally `PB(i)` and `RF(i)` (R51, R52). -/
def lookup (t : Table) (i : Idx) : Idx := t[i]

/-- The table store whose entry i is `f i`. -/
def tableOf (f : Idx → Idx) : Table := ⟨((List.finRange 26).map f).toArray, by simp⟩

/-- `Tinv[y]`: the one position j with `T[j] = y` (R53). Where the table has no such position, or several, it is no
bijection and the value is free (log 8). -/
def inverseLookup (t : Table) (y : Idx) : Idx :=
  match (List.finRange 26).filter (fun j => lookup t j == y) with
  | [j] => j
  | _ => Config.strayInverse t y

/-! ### The rotor primitives -/

/-- `fwd_k(i) = T_k[(i + OFS[k]) mod 26]` (R121). -/
def Rotor.fwd (r : Rotor) (i : Idx) : Idx := lookup r.table (addMod i r.ofs)

/-- `bwd_k(y) = (Tinv_k[y] - OFS[k]) mod 26` (R123). -/
def Rotor.bwd (r : Rotor) (y : Idx) : Idx := subMod (inverseLookup r.table y) r.ofs

/-- The rotor after `step_k` (R126). -/
def Rotor.stepped (r : Rotor) : Rotor :=
  if h : r.ofs.val = 25 then { r with ofs := 0 } else { r with ofs := ⟨r.ofs.val + 1, by omega⟩ }

/-- The carry `step_k` returns: the offset was 25 (R126). -/
def Rotor.carries (r : Rotor) : Bool := r.ofs.val == 25

/-- `step_k` on the store: rotor k alone is written (R126, R128). -/
def Store.stepRotor (st : Store) (k : Nat) (r : Rotor) : Store :=
  { st with rotors := st.rotors.set k r.stepped }

/-! ### The pipeline and the odometer -/

/-- The forward pass, first rotor to last (R142). -/
def forwardPass (rs : List Rotor) (i : Idx) : Idx := rs.foldl (fun x r => r.fwd x) i

/-- The backward pass, last rotor to first (R142). -/
def backwardPass (rs : List Rotor) (i : Idx) : Idx := rs.foldr (fun r x => r.bwd x) i

/-- `pipe(i)`: plugboard, rotors forward, reflector, rotors backward, plugboard (R142). -/
def pipe (st : Store) (i : Idx) : Idx :=
  lookup st.pb (backwardPass st.rotors (lookup st.rf (forwardPass st.rotors (lookup st.pb i))))

/-- `eng_step` on the rotors (R145): each rotor up to and including the first that does not carry steps; a carry out of the
last rotor is dropped. -/
def rippleStep : List Rotor → List Rotor
  | [] => []
  | r :: rs => r.stepped :: (if r.carries then rippleStep rs else rs)

/-- `eng_step` on the store (R145). -/
def Store.engineStep (st : Store) : Store := { st with rotors := rippleStep st.rotors }

/-- The offsets read as a number in base 26, rotor 0 the least significant digit: V of R147. -/
def odometer : List Rotor → Nat
  | [] => 0
  | r :: rs => r.ofs.val + 26 * odometer rs

/-! ### Raising an error, and the execution skeleton -/

/-- `raise E()` (R172): nothing is written, and the result word is STATUS = code(E) alone. There is no trap entry (R182) and
no return from one (R183): the next command starts from the unchanged state. -/
def State.raise (s : State) (e : Err) : State := { s with answer := some (.resultPort e.word) }

/-- `return OK(...)`: the stores and offsets the command leaves, and its result word (R82). -/
def State.complete (s : State) (st : Store) (r : Reply) : State :=
  { s with cfgst := .ready st, answer := some (.resultPort r.word) }

/-- The skeleton of R171 after decoding: NotConfigured while CFGST is UNCONFIGURED (R176); else the command's own checks and
effect, `body`, whose error is raised. -/
def runCommand (body : Store → Except Err (Store × Reply)) (s : State) : Host.Outcome State Fault Refusal :=
  match s.cfgst with
  | .unconfigured => .next (s.raise .notConfigured)
  | .ready st =>
    match body st with
    | .error e => .next (s.raise e)
    | .ok (st', r) => .next (s.complete st' r)

/-! ### The host's queue -/

/-- The host presents a command word next, before whatever else it has still to present. -/
def State.present (s : State) (cw : Word) : State := { s with hostQueue := .command cw :: s.hostQueue }

end Sys2Proof.Machine
end

