-- ==== Sys2Proof/Machine/Engine.lean ====
section
/-! DEFINITION. The engine commands (42_engine.md). -/

namespace Sys2Proof.Machine

/-- ENG_STEP (R146): the odometer step; no result field is driven. -/
def execEngStep (s : State) : Host.Outcome State Fault Refusal :=
  runCommand (fun st => .ok (st.engineStep, {})) s

/-- PROCESS (R141): the output is computed at the offsets before the step (R143); on any error nothing steps. -/
def execProcess (cnt : Count) (char : Byte) (s : State) : Host.Outcome State Fault Refusal :=
  runCommand (fun st => withSym cnt char fun i => .ok (st.engineStep, { sym := sym (pipe st i) })) s

end Sys2Proof.Machine
end

