-- ==== Sys2Proof/Machine/Pairing.lean ====
section
/-! DEFINITION. The pairing commands (40_pairing.md). -/

namespace Sys2Proof.Machine

/-- PB_SWAP (R103): the plugboard partner of the symbol. -/
def execPbSwap (cnt : Count) (char : Byte) (s : State) : Host.Outcome State Fault Refusal :=
  runCommand (fun st => withSym cnt char fun i => .ok (st, { sym := sym (lookup st.pb i) })) s

/-- RF_SWAP (R106): the reflector partner of the symbol. -/
def execRfSwap (cnt : Count) (char : Byte) (s : State) : Host.Outcome State Fault Refusal :=
  runCommand (fun st => withSym cnt char fun i => .ok (st, { sym := sym (lookup st.rf i) })) s

end Sys2Proof.Machine
end

