-- ==== Sys2Proof/Machine/Rotors.lean ====
section
/-! DEFINITION. The rotor commands (41_rotor.md). The rotor-index check of R78 comes before the symbol check (R180). -/

namespace Sys2Proof.Machine

/-- ROT_FWD (R122): rotor k's forward substitution; the offset is read, not stepped. -/
def execRotFwd (k : Nat) (cnt : Count) (char : Byte) (s : State) : Host.Outcome State Fault Refusal :=
  runCommand (fun st => withRotor k st fun r => withSym cnt char fun i => .ok (st, { sym := sym (r.fwd i) })) s

/-- ROT_BWD (R124): rotor k's backward substitution; the offset is read, not stepped. -/
def execRotBwd (k : Nat) (cnt : Count) (char : Byte) (s : State) : Host.Outcome State Fault Refusal :=
  runCommand (fun st => withRotor k st fun r => withSym cnt char fun i => .ok (st, { sym := sym (r.bwd i) })) s

/-- ROT_STEP (R127): rotor k alone steps, and its carry is reported (R128). -/
def execRotStep (k : Nat) (s : State) : Host.Outcome State Fault Refusal :=
  runCommand (fun st => withRotor k st fun r => .ok (st.stepRotor k r, { carry := r.carries })) s

end Sys2Proof.Machine
end

