-- ==== Sys2Proof/Machine/Dispatch.lean ====
section
/-! DEFINITION. One arm per command (the case of R171, which has no default arm). -/

namespace Sys2Proof.Machine

def exec (i : Instr) (s : State) : Host.Outcome State Fault Refusal :=
  match i with
  | .pbSwap cnt char => Sys2Proof.Machine.execPbSwap cnt char s
  | .rfSwap cnt char => Sys2Proof.Machine.execRfSwap cnt char s
  | .rotFwd k cnt char => Sys2Proof.Machine.execRotFwd k cnt char s
  | .rotBwd k cnt char => Sys2Proof.Machine.execRotBwd k cnt char s
  | .rotStep k => Sys2Proof.Machine.execRotStep k s
  | .engStep => Sys2Proof.Machine.execEngStep s
  | .process cnt char => Sys2Proof.Machine.execProcess cnt char s

end Sys2Proof.Machine
end

