-- ==== Sys2Proof/Machine/Reset.lean ====
section
/-! DEFINITION. The reset port and power-on (70_reset_and_hazards.md): the validity checks (R205), the pair map (R206), what
a valid reset loads (R202) and what an invalid one leaves (R203). -/

namespace Sys2Proof.Machine

/-! ### Validity (R205) -/

/-- An integer in 0..25. -/
abbrev IsIndex (n : Int) : Prop := 0 ≤ n ∧ n ≤ 25

/-- V1: at least one rotor, at most 256, and one table and one shift for each. -/
abbrev Cfg.rotorCountOk (c : Cfg) : Prop :=
  1 ≤ c.nrot ∧ c.nrot ≤ (Config.nrotMax : Int) ∧ (c.table.length : Int) = c.nrot ∧ (c.shift.length : Int) = c.nrot

/-- V2 for one table: 26 entries, each an index, no two equal. -/
abbrev IsPermutationTable (t : List Int) : Prop := t.length = 26 ∧ (∀ x ∈ t, IsIndex x) ∧ t.Nodup

/-- V2. -/
abbrev Cfg.tablesOk (c : Cfg) : Prop := ∀ t ∈ c.table, IsPermutationTable t

/-- V3: a shift outside 0..25 is invalid and is not reduced. -/
abbrev Cfg.shiftsOk (c : Cfg) : Prop := ∀ o ∈ c.shift, IsIndex o

/-- The numbers in all pairs of a list. -/
def pairMembers (ps : List (Int × Int)) : List Int := ps.flatMap (fun p => [p.1, p.2])

/-- What V4 and V5 ask of a list of pairs: the members of a pair are indices and differ, and the numbers in all pairs are
distinct. -/
abbrev IsPairing (ps : List (Int × Int)) : Prop :=
  (∀ p ∈ ps, IsIndex p.1 ∧ IsIndex p.2 ∧ p.1 ≠ p.2) ∧ (pairMembers ps).Nodup

/-- V4: the plugboard, 0 to 13 pairs. -/
abbrev Cfg.plugboardOk (c : Cfg) : Prop := c.plug.length ≤ Config.pairMax ∧ IsPairing c.plug

/-- V5: the reflector, exactly 13 pairs. -/
abbrev Cfg.reflectorOk (c : Cfg) : Prop := c.refl.length = Config.pairMax ∧ IsPairing c.refl

/-- `valid(cfg)`: every check passes. -/
abbrev Cfg.Valid (c : Cfg) : Prop :=
  c.rotorCountOk ∧ c.tablesOk ∧ c.shiftsOk ∧ c.plugboardOk ∧ c.reflectorOk

/-! ### Loading (R202, R206) -/

/-- A checked integer as an index. Reset uses it on integers in 0..25 only (log 18). -/
def toIdx (n : Int) : Idx := ⟨n.toNat % 26, by omega⟩

/-- A checked table as a table store. -/
def loadTable (t : List Int) : Table := tableOf fun i => toIdx (t.getD i.val 0)

/-- The partner of i in a list of pairs, i itself where no pair holds it (R206). -/
def partnerIn : List (Int × Int) → Idx → Idx
  | [], i => i
  | (a, b) :: ps, i =>
    if toIdx a = i then toIdx b else if toIdx b = i then toIdx a else partnerIn ps i

/-- `map_of(pairs)` (R206): both directions of each pair, every other index its own partner. -/
def mapOf (ps : List (Int × Int)) : Table := tableOf (partnerIn ps)

/-- The stores and offsets a valid record gives (R202). -/
def Cfg.load (c : Cfg) : Store :=
  { rotors := List.zipWith (fun t o => { table := loadTable t, ofs := toIdx o }) c.table c.shift
    pb := mapOf c.plug
    rf := mapOf c.refl }

/-! ### The reset port and power-on -/

/-- `reset(cfg)`: a complete re-construction from a valid record (R202), or UNCONFIGURED with every store and offset
discarded (R203). Nothing of the block's state before it is read (R204). -/
def applyReset (c : Cfg) (s : State) : State :=
  if c.Valid then
    { s with cfgst := .ready c.load, answer := some (.resetPort (Reply.word {})) }
  else
    { s with cfgst := .unconfigured, answer := some (.resetPort Err.invalidConfiguration.word) }

/-- Power-on (R21, R189): UNCONFIGURED, and nothing has been answered yet. Log 6. -/
def applyPowerOn (s : State) : State := { s with cfgst := .unconfigured, answer := none }

end Sys2Proof.Machine
end

