-- ==== Sys2Proof/Machine/Execute.lean ====
section
/-! DEFINITION. `execute(CW)` of R171, and what the block does with one access to its ports. -/

namespace Sys2Proof.Machine

/-- `execute(CW)` (R171): IllegalCommand where `decode` rejects the word; else the command. -/
def execute (cw : Word) (s : State) : Host.Outcome State Fault Refusal :=
  match decode cw with
  | .error _ => .next (s.raise .illegalCommand)
  | .ok i => exec i s

/-- One access, performed to its end (R58, R59); unserialised use is refused (R220). -/
def performAccess (a : Access) (s : State) : Host.Outcome State Fault Refusal :=
  match a with
  | .command cw => execute cw s
  | .reset cfg => .next (applyReset cfg s)
  | .powerOn => .next (applyPowerOn s)
  | .unserialised => .refused .unserialisedUse

/-- The next access of the host's queue; where the host presents nothing, the block does nothing (log 4). -/
def performNext (s : State) : Host.Outcome State Fault Refusal :=
  match s.hostQueue with
  | [] => .next s
  | a :: rest => performAccess a { s with hostQueue := rest }

end Sys2Proof.Machine
end

