-- ==== Sys2Proof/Machine/Step.lean ====
section
/-! DEFINITION. One step: the block performs the next access of the host's queue. -/

namespace Sys2Proof.Machine

/-- The host presents one access at a time, and the block performs it before the next is presented (R58, R220). -/
def step (s : State) : Host.Outcome State Fault Refusal := performNext s

/-- `s` with the table's word presented next on the command port: the block fetches nothing, the host presents commands
(R30, R62). Logs 1 and 13. -/
def State.withFetchWord (s : State) (nbits w : Nat) : State :=
  match tableWord nbits w with
  | none => s
  | some cw => s.present cw

end Sys2Proof.Machine
end

