-- ==== Sys2Proof/Machine/Message.lean ====
section
/-! DEFINITION. The pseudo-operation PROCESS_MANY (42_engine.md R150), which the host performs as one PROCESS command per
character. -/

namespace Sys2Proof.Machine

/-- What PROCESS_MANY gives: the outputs delivered, the status it ended with (0 is OK), and the state it leaves. -/
structure Message where
  out    : List Byte
  status : BitVec 4
  state  : State
  deriving DecidableEq, Repr

/-- The word of `PROCESS 'c'` for the character of code c: CNT = 0b01, CHAR = c (R84, R150). -/
def processWord (c : Byte) : Word := encode (.process .one c)

/-- The word on the result port, where the block has just answered a command. -/
def State.result? (s : State) : Option Word :=
  match s.answer with
  | some (.resultPort rw) => some rw
  | _ => none

/-- PROCESS_MANY (R150), also named ENCRYPT and DECRYPT (R86): the characters in order, stopping at the first whose PROCESS
fails, with the ones before it processed. -/
def processMany : List Byte → State → Host.Outcome Message Fault Refusal
  | [], s => .next { out := [], status := 0, state := s }
  | c :: cs, s =>
    match execute (processWord c) s with
    | .fault f => .fault f
    | .refused r => .refused r
    | .next s' =>
      match s'.result? with
      | none => .refused .noResultReturned
      | some rw =>
        if statusField rw = 0 then
          match processMany cs s' with
          | .fault f => .fault f
          | .refused r => .refused r
          | .next m => .next { m with out := symField rw :: m.out }
        else .next { out := [], status := statusField rw, state := s' }

end Sys2Proof.Machine
end

