-- ==== Sys2Proof/Machine/Assembler.lean ====
section
/-! DEFINITION. The assembler syntax (30_encoding.md R84 to R86): one line of text to the command words the host presents.
Lexical points R84 leaves open are in log 12. -/

namespace Sys2Proof.Machine

/-- The 8-bit code of a character (R9, R84). The spec gives codes of ASCII characters only. DESIGN CHOICE (log 12): a
character from U+0080 to U+00FF has its Unicode code point as its 8-bit code, and one above U+00FF has none and is presented
as 0x00. Both are CHARs outside `A` to `Z`, as R75 asks of a character with no 8-bit code. -/
def charCode (c : Char) : Byte := if c.toNat < 256 then BitVec.ofNat 8 c.toNat else 0

/-- A decimal digit's value. -/
def decimalDigit (c : Char) : Option Nat :=
  if '0'.toNat ≤ c.toNat ∧ c.toNat ≤ '9'.toNat then some (c.toNat - '0'.toNat) else none

/-- A hexadecimal digit's value, in either case. -/
def hexDigit (c : Char) : Option Nat :=
  if 'A'.toNat ≤ c.toNat ∧ c.toNat ≤ 'F'.toNat then some (c.toNat - 'A'.toNat + 10)
  else if 'a'.toNat ≤ c.toNat ∧ c.toNat ≤ 'f'.toNat then some (c.toNat - 'a'.toNat + 10)
  else decimalDigit c

/-- Digits in a base, most significant first, on top of the value `acc` read so far. -/
def digitsValue (base : Nat) (digit : Char → Option Nat) : List Char → Nat → Option Nat
  | [], acc => some acc
  | c :: cs, acc =>
    match digit c with
    | none => none
    | some d => digitsValue base digit cs (base * acc + d)

/-- A rotor operand: a decimal index 0..255 (R84). -/
def parseRotor (cs : List Char) : Option Nat :=
  if cs = [] then none
  else match digitsValue 10 decimalDigit cs 0 with
    | none => none
    | some k => if k < 256 then some k else none

/-- `0x` and exactly `n` hexadecimal digits. -/
def parseHex (n : Nat) (cs : List Char) : Option Nat :=
  match cs with
  | '0' :: 'x' :: ds => if ds.length = n then digitsValue 16 hexDigit ds 0 else none
  | _ => none

/-- The characters between two double quotes. -/
def parseText (cs : List Char) : Option (List Char) :=
  match cs with
  | '"' :: rest => if rest.getLast? = some '"' then some rest.dropLast else none
  | _ => none

/-- A symbol operand as CNT and CHAR (R84): `'X'`, `""`, `"XY..."` or `#0xNN`. -/
def parseSym (cs : List Char) : Option (Count × Byte) :=
  match cs with
  | ['\'', c, '\''] => some (.one, charCode c)
  | '#' :: hex => (parseHex 2 hex).map fun v => (.one, BitVec.ofNat 8 v)
  | _ =>
    match parseText cs with
    | some [] => some (.zero, 0)
    | some (c :: _ :: _) => some (.several, charCode c)
    | _ => none

/-- `k, sym`. -/
def parseRotorSym (cs : List Char) : Option (Nat × Count × Byte) :=
  match parseRotor (cs.takeWhile (· ≠ ',')), cs.dropWhile (· ≠ ',') with
  | some k, ',' :: rest => (parseSym (rest.dropWhile (· = ' '))).map fun p => (k, p)
  | _, _ => none

/-- The command a line stands for, mnemonic `m` and operand text `ops` (R84). -/
def parseCommand (m ops : List Char) : Option Instr :=
  if m = "PB_SWAP".toList then (parseSym ops).map fun p => .pbSwap p.1 p.2
  else if m = "RF_SWAP".toList then (parseSym ops).map fun p => .rfSwap p.1 p.2
  else if m = "ROT_FWD".toList then (parseRotorSym ops).map fun p => .rotFwd p.1 p.2.1 p.2.2
  else if m = "ROT_BWD".toList then (parseRotorSym ops).map fun p => .rotBwd p.1 p.2.1 p.2.2
  else if m = "ROT_STEP".toList then (parseRotor ops).map fun k => .rotStep k
  else if m = "ENG_STEP".toList then (if ops = [] then some .engStep else none)
  else if m = "PROCESS".toList then (parseSym ops).map fun p => .process p.1 p.2
  else none

/-- The names of the pseudo-operation (R86). -/
def pseudoNames : List (List Char) := ["PROCESS_MANY".toList, "ENCRYPT".toList, "DECRYPT".toList]

/-- The words a line stands for: one for a command (R84), the raw word for `.word` (R85), one PROCESS per character for the
pseudo-operation (R86); `none` where the line is none of these. -/
def assembleLine (line : List Char) : Option (List Word) :=
  let m := line.takeWhile (· ≠ ' ')
  let ops := (line.dropWhile (· ≠ ' ')).dropWhile (· = ' ')
  if m = ".word".toList then (parseHex 8 ops).map fun v => [BitVec.ofNat 32 v]
  else if m ∈ pseudoNames then (parseText ops).map fun cs => cs.map fun c => processWord (charCode c)
  else (parseCommand m ops).map fun i => [encode i]

end Sys2Proof.Machine
end

