-- ==== Sys2Proof/Machine/Seeds.lean ====
section
/-! DEFINITION. Construction from seeds, outside the block (70_reset_and_hazards.md R201). The shuffle GEN_PERM is open: every
definition here takes it as an argument and assumes nothing of it but that it is a function of the seed (R16). Log 10. -/

namespace Sys2Proof.Machine

/-- A rotor of a SeedCfg: its seed and its shift, default 0 (R201). -/
structure RotorSeed where
  seed  : Int
  shift : Int := 0
  deriving DecidableEq, Repr

/-- SeedCfg (R201). There is no default pair count (R13). -/
structure SeedCfg where
  rotors        : List RotorSeed
  reflectorSeed : Int
  plugSeed      : Int
  pairCount     : Int
  deriving DecidableEq, Repr

/-- `pairs_from_perm(g, p)`: the first 2p entries of g, grouped consecutively into pairs (R201), for p up to 13. -/
def pairsFromPerm (g : Idx → Idx) (p : Nat) : List (Int × Int) :=
  (List.range p).map fun (j : Nat) => (((g (toIdx (2 * (j : Int)))).val : Int), ((g (toIdx (2 * (j : Int) + 1))).val : Int))

/-- `build(S)`: the record, or InvalidConfiguration where the pair count is outside 0..13 (R201). -/
def SeedCfg.build (genPerm : Int → Idx → Idx) (S : SeedCfg) : Except Err Cfg :=
  if S.pairCount < 0 ∨ (Config.pairMax : Int) < S.pairCount then .error .invalidConfiguration
  else .ok
    { nrot := S.rotors.length
      table := S.rotors.map fun r => (List.finRange 26).map fun i => ((genPerm r.seed i).val : Int)
      shift := S.rotors.map RotorSeed.shift
      refl := pairsFromPerm (genPerm S.reflectorSeed) Config.pairMax
      plug := pairsFromPerm (genPerm S.plugSeed) S.pairCount.toNat }

/-- The host's boot from seeds (R209): it builds the record and applies reset with it; where the build fails it applies
none and the block is left as it was (V-R14 of 95_test_vectors.md). -/
def bootFromSeeds (genPerm : Int → Idx → Idx) (S : SeedCfg) (s : State) : State :=
  match S.build genPerm with
  | .error _ => s
  | .ok c => applyReset c s

end Sys2Proof.Machine
end

