-- ==== Sys2Proof/Safety.lean ====
section
/-! DEFINITION. What holds of every state a run reaches: the invariants of a valid reset (R207), which no command can break. -/

namespace Sys2Proof.Machine

/-- A bijection on 0..25: no duplicates, full coverage (R27). -/
abbrev Table.Bijective (t : Table) : Prop :=
  (∀ i j : Idx, lookup t i = lookup t j → i = j) ∧ ∀ y : Idx, ∃ j : Idx, lookup t j = y

/-- `M(M(i)) = i` for every i (R25, R26). -/
abbrev Table.Involutive (t : Table) : Prop := ∀ i : Idx, lookup t (lookup t i) = i

/-- `M(i) != i` for every i (R26). -/
abbrev Table.FixedPointFree (t : Table) : Prop := ∀ i : Idx, lookup t i ≠ i

/-- The stores of a READY block (R25 to R28, R207). That offsets are in 0..25 (R23) is in their type. -/
abbrev Store.Wf (st : Store) : Prop :=
  (1 ≤ st.nrot ∧ st.nrot ≤ Config.nrotMax) ∧ (∀ r ∈ st.rotors, r.table.Bijective) ∧
  st.pb.Involutive ∧ st.rf.Involutive ∧ st.rf.FixedPointFree

/-- The invariant of the block: its stores, while it has any, are those a valid reset can leave. -/
def State.Inv (s : State) : Prop :=
  match s.cfgst with
  | .unconfigured => True
  | .ready st => st.Wf

end Sys2Proof.Machine
end

