-- ==== Sys2Proof/Certificates/Slice0/Obligations.lean ====
section
/-! DEFINITION. The statements for the provers. The statements of the seven commands write results out in the spec's own
arithmetic, not through the operations the meanings call; of those, only the reads `lookup` of a table are shared. The laws
further down name the model's `inverseLookup`, `pipe`, `odometer` and `Rotor.stepped` where the rule is about them. -/

open Sys2Proof Sys2Proof.Machine

namespace Sys2Proof.Claims

/-! ### Words the statements share -/

/-- The symbol code of index i: `code(s) = 0x41 + idx(s)` (R9). -/
def letter (i : Idx) : Byte := BitVec.ofNat 8 (0x41 + i.val)

/-- Zero or several characters, or a character outside `A` to `Z` (R101, R173). -/
def NotOneLetter (cnt : Count) (char : Byte) : Prop := cnt ≠ .one ∨ char.toNat < 0x41 ∨ 0x5A < char.toNat

/-- A result word on the result port, by its fields (R80). -/
def answered (status carry symbol : Nat) : Option Answer :=
  some (.resultPort (BitVec.ofNat 32 (status * 2 ^ 28 + carry * 2 ^ 8 + symbol)))

/-- A result word on the reset port: SYM = CARRY = 0 (R204). -/
def resetAnswered (status : Nat) : Option Answer := some (.resetPort (BitVec.ofNat 32 (status * 2 ^ 28)))

/-- The encoding and the errors of a symbol command of class S with opcode `op`: its words, the words with a bad field, the
unconfigured block, the bad symbol (R73, R77, R101, R172, R176). -/
def SymbolCommandChecks (op : Nat) (command : Count → Byte → Instr) : Prop :=
  (∀ cnt char, decode (BitVec.ofNat 32 (op * 2 ^ 28 + cnt.code * 2 ^ 8 + char.toNat)) = .ok (command cnt char)) ∧
  (∀ cw s, (opField cw).toNat = op →
    (rsv1Field cw ≠ 0 ∨ rsv2Field cw ≠ 0 ∨ cntField cw = 3 ∨ ridxField cw ≠ 0) →
    execute cw s = .next { s with answer := answered 3 0 0 }) ∧
  (∀ s cnt char, s.cfgst = .unconfigured → exec (command cnt char) s = .next { s with answer := answered 4 0 0 }) ∧
  (∀ (s : State) (st : Store) cnt char, s.cfgst = .ready st → NotOneLetter cnt char →
    exec (command cnt char) s = .next { s with answer := answered 1 0 0 })

/-- The encoding and the errors of a symbol command of class RS with opcode `op`; the rotor index is checked before the
symbol (R73, R77, R78, R101, R172, R176, R180). -/
def RotorSymbolCommandChecks (op : Nat) (command : Nat → Count → Byte → Instr) : Prop :=
  (∀ k cnt char, k < 256 →
    decode (BitVec.ofNat 32 (op * 2 ^ 28 + k * 2 ^ 16 + cnt.code * 2 ^ 8 + char.toNat)) = .ok (command k cnt char)) ∧
  (∀ cw s, (opField cw).toNat = op → (rsv1Field cw ≠ 0 ∨ rsv2Field cw ≠ 0 ∨ cntField cw = 3) →
    execute cw s = .next { s with answer := answered 3 0 0 }) ∧
  (∀ s k cnt char, s.cfgst = .unconfigured →
    exec (command k cnt char) s = .next { s with answer := answered 4 0 0 }) ∧
  (∀ (s : State) (st : Store) k cnt char, s.cfgst = .ready st → st.rotors.length ≤ k →
    exec (command k cnt char) s = .next { s with answer := answered 3 0 0 }) ∧
  (∀ (s : State) (st : Store) k cnt char, s.cfgst = .ready st → k < st.rotors.length → NotOneLetter cnt char →
    exec (command k cnt char) s = .next { s with answer := answered 1 0 0 })

/-- The odometer step of R145, rotor by rotor: a rotor steps exactly where every rotor before it was at 25, from 25 to 0 and
else up by one; every other offset, and every table, is unchanged. -/
def Rippled (rs rs' : List Rotor) : Prop :=
  rs'.length = rs.length ∧
  ∀ (k : Nat) (r : Rotor), rs[k]? = some r → ∃ r' : Rotor, rs'[k]? = some r' ∧ r'.table = r.table ∧
    ((∀ (j : Nat) (q : Rotor), j < k → rs[j]? = some q → q.ofs.val = 25) →
      r'.ofs.val = if r.ofs.val = 25 then 0 else r.ofs.val + 1) ∧
    ((∃ (j : Nat) (q : Rotor), j < k ∧ rs[j]? = some q ∧ q.ofs.val ≠ 25) → r'.ofs = r.ofs)

/-- The letters of one pass through the pipeline (R142): `forth k` enters rotor k on the forward pass, `back k` leaves it on
the backward pass; the plugboard stands before and after, the reflector between. -/
def Traced (st : Store) (i : Idx) (forth back : Nat → Idx) : Prop :=
  forth 0 = lookup st.pb i ∧
  (∀ (k : Nat) (r : Rotor), st.rotors[k]? = some r → ∃ p : Idx,
    p.val = ((forth k).val + r.ofs.val) % 26 ∧ forth (k + 1) = lookup r.table p) ∧
  back st.rotors.length = lookup st.rf (forth st.rotors.length) ∧
  (∀ (k : Nat) (r : Rotor), st.rotors[k]? = some r → ∃ j : Idx,
    lookup r.table j = back (k + 1) ∧ ((back k).val : Int) = ((j.val : Int) - r.ofs.val) % 26)

/-- A list of pairs passes what V4 and V5 ask of pairs, by position (R205). -/
def PairsOk (ps : List (Int × Int)) : Prop :=
  (∀ p ∈ ps, 0 ≤ p.1 ∧ p.1 ≤ 25 ∧ 0 ≤ p.2 ∧ p.2 ≤ 25 ∧ p.1 ≠ p.2) ∧
  ∀ (i j : Nat) (p q : Int × Int), i < j → ps[i]? = some p → ps[j]? = some q → p.1 ≠ q.1 ∧ p.1 ≠ q.2 ∧ p.2 ≠ q.1 ∧ p.2 ≠ q.2

/-- The checks V1 to V5 of R205, by position. -/
def ChecksPass (c : Cfg) : Prop :=
  (1 ≤ c.nrot ∧ c.nrot ≤ 256 ∧ (c.table.length : Int) = c.nrot ∧ (c.shift.length : Int) = c.nrot) ∧
  (∀ t ∈ c.table, t.length = 26 ∧ (∀ x ∈ t, 0 ≤ x ∧ x ≤ 25) ∧
    ∀ (i j : Nat) (x y : Int), i < j → t[i]? = some x → t[j]? = some y → x ≠ y) ∧
  (∀ o ∈ c.shift, 0 ≤ o ∧ o ≤ 25) ∧
  (c.plug.length ≤ 13 ∧ PairsOk c.plug) ∧
  (c.refl.length = 13 ∧ PairsOk c.refl)

/-- `M(a) = b` and `M(b) = a` for each pair, `M(i) = i` for every i in no pair (R206). -/
def IsPairMap (ps : List (Int × Int)) (M : Table) : Prop :=
  (∀ a b : Idx, ((a.val : Int), (b.val : Int)) ∈ ps → lookup M a = b ∧ lookup M b = a) ∧
  ∀ i : Idx, (∀ p ∈ ps, p.1 ≠ (i.val : Int) ∧ p.2 ≠ (i.val : Int)) → lookup M i = i

/-- Two stores with the same tables in the same order, the same plugboard and the same reflector. -/
def SameWiring (st st' : Store) : Prop :=
  st'.rotors.map Rotor.table = st.rotors.map Rotor.table ∧ st'.pb = st.pb ∧ st'.rf = st.rf

end Sys2Proof.Claims

open Sys2Proof.Claims

/-! ### Encoding -/

/-- R84 with R77: no bit of a command is dropped by encoding and decoding it. -/
def Obligations.EncodedCommandDecodesToItself : Prop :=
  ∀ i : Instr, i.wellFormed = true → decode (encode i) = .ok i

/-- R77 with R84, the other direction: a word that decodes is the word its command encodes to. -/
def Obligations.DecodedWordIsItsCommandsEncoding : Prop :=
  ∀ (cw : Word) (i : Instr), decode cw = .ok i → encode i = cw ∧ i.wellFormed = true

/-- R79: which words `decode` rejects, and that the block answers each of them IllegalCommand and writes no state, whatever
its state. -/
def Obligations.RejectedWordsAreIllegalAndWriteNothing : Prop :=
  ∀ cw : Word,
    (decode cw = .error .illegalCommand ↔
      ((opField cw).toNat = 0 ∨ 8 ≤ (opField cw).toNat ∨ rsv1Field cw ≠ 0 ∨ rsv2Field cw ≠ 0 ∨ cntField cw = 3 ∨
        ((opField cw).toNat ∈ [1, 2, 6, 7] ∧ ridxField cw ≠ 0) ∨
        ((opField cw).toNat ∈ [5, 6] ∧ (cntField cw ≠ 0 ∨ charField cw ≠ 0)))) ∧
    (decode cw = .error .illegalCommand → ∀ s, execute cw s = .next { s with answer := answered 3 0 0 })

/-- R87: the rows with match and mask accept exactly the words `decode` accepts, with the rotor-index check added; the rows
are disjoint, because OP differs; a selected row names the decoded command, and a word that selects no row is illegal. -/
def Obligations.OpcodeTableAcceptsWhatDecodeAccepts : Prop :=
  ∀ (nrot : Nat) (cw : Word),
    ((∃ row ∈ opcodeTable, row.selects nrot cw = true) ↔
      ∃ i, decode cw = .ok i ∧ ∀ k, i.rotorIndex = some k → k < nrot) ∧
    (∀ row ∈ opcodeTable, ∀ row' ∈ opcodeTable,
      row.selects nrot cw = true → row'.selects nrot cw = true → row = row') ∧
    (∀ row ∈ opcodeTable, ∀ row' ∈ opcodeTable, opField row.pattern = opField row'.pattern → row = row') ∧
    (∀ row ∈ opcodeTable, row.selects nrot cw = true → ∃ i, decode cw = .ok i ∧ i.mnemonic = row.mnemonic) ∧
    ∀ (s : State) (st : Store), s.cfgst = .ready st → st.rotors.length = nrot →
      (∀ row ∈ opcodeTable, row.selects nrot cw = false) → execute cw s = .next { s with answer := answered 3 0 0 }

/-- One word of each command, written out from the table's encoding column, and two reserved ones. -/
def Obligations.WrittenOutWordsDecodeToTheirCommands : Prop :=
  decode 0x10000141 = .ok (.pbSwap .one 0x41) ∧ decode 0x2000027A = .ok (.rfSwap .several 0x7A) ∧
  decode 0x30020148 = .ok (.rotFwd 2 .one 0x48) ∧ decode 0x40FF0142 = .ok (.rotBwd 255 .one 0x42) ∧
  decode 0x50010000 = .ok (.rotStep 1) ∧ decode 0x60000000 = .ok .engStep ∧
  decode 0x70000000 = .ok (.process .zero 0x00) ∧
  decode 0x00000000 = .error .illegalCommand ∧ decode 0x80000000 = .error .illegalCommand

/-- The examples of R84 and a raw word (R85). -/
def Obligations.AssemblerExamplesGiveTheirWords : Prop :=
  assembleLine "ROT_FWD 2, 'H'".toList = some [0x30020148] ∧
  assembleLine "ROT_STEP 1".toList = some [0x50010000] ∧
  assembleLine "PROCESS \"\"".toList = some [0x70000000] ∧
  assembleLine ".word 0x80000000".toList = some [0x80000000]

/-- R85: a line assembles to legal words only, unless it is `.word`, whose word is presented unchanged. How a line is read is
the model's choice, log 12: the mnemonic ends at the first space, and hexadecimal digits are of either case. -/
def Obligations.OnlyRawWordsAssembleToIllegalWords : Prop :=
  (∀ line ws, assembleLine line = some ws → line.takeWhile (· ≠ ' ') ≠ ".word".toList →
    ∀ w ∈ ws, ∃ i, decode w = .ok i) ∧
  (∀ digits v, digits.length = 8 → digitsValue 16 hexDigit digits 0 = some v →
    assembleLine (".word 0x".toList ++ digits) = some [BitVec.ofNat 32 v])

/-- R86: the three names stand for one PROCESS per character, in order. That a text ends at the line's last double quote, and
so may hold double quotes, and which code a non-ASCII character has, 0x00 where it has no 8-bit code, are the model's
choices, log 12. -/
def Obligations.MessageLineIsOneProcessPerCharacter : Prop :=
  ∀ name ∈ ["PROCESS_MANY".toList, "ENCRYPT".toList, "DECRYPT".toList], ∀ text : List Char,
    assembleLine (name ++ ' ' :: '"' :: text ++ ['"']) =
      some (text.map fun c => BitVec.ofNat 32 (7 * 2 ^ 28 + 1 * 2 ^ 8 + (charCode c).toNat))

/-! ### The seven commands -/

/-- R103: PB_SWAP, its encoding, errors and result. -/
def Obligations.PbSwapReturnsPlugboardPartner : Prop :=
  SymbolCommandChecks 1 .pbSwap ∧
  ∀ (s : State) (st : Store) (i : Idx), s.cfgst = .ready st →
    exec (.pbSwap .one (letter i)) s = .next { s with answer := answered 0 0 (0x41 + (lookup st.pb i).val) }

/-- R106: RF_SWAP, its encoding, errors and result. -/
def Obligations.RfSwapReturnsReflectorPartner : Prop :=
  SymbolCommandChecks 2 .rfSwap ∧
  ∀ (s : State) (st : Store) (i : Idx), s.cfgst = .ready st →
    exec (.rfSwap .one (letter i)) s = .next { s with answer := answered 0 0 (0x41 + (lookup st.rf i).val) }

/-- R121 and R122: ROT_FWD, its encoding, errors and result. -/
def Obligations.RotFwdReadsTableAtIndexPlusOffset : Prop :=
  RotorSymbolCommandChecks 3 .rotFwd ∧
  ∀ (s : State) (st : Store) (k : Nat) (r : Rotor) (i p : Idx), s.cfgst = .ready st → st.rotors[k]? = some r → p.val = (i.val + r.ofs.val) % 26 →
    exec (.rotFwd k .one (letter i)) s = .next { s with answer := answered 0 0 (0x41 + (lookup r.table p).val) }

/-- R123 and R124: ROT_BWD, its encoding, errors and result, on a table that is a bijection, as every table is after a valid
reset (R53, R207). What it does on another table is the model's choice: CommandsWithoutACauseOfErrorSucceed. -/
def Obligations.RotBwdReturnsInversePositionMinusOffset : Prop :=
  RotorSymbolCommandChecks 4 .rotBwd ∧
  ∀ (s : State) (st : Store) (k : Nat) (r : Rotor) (y j z : Idx), s.cfgst = .ready st → st.rotors[k]? = some r →
    r.table.Bijective → lookup r.table j = y → (z.val : Int) = ((j.val : Int) - r.ofs.val) % 26 →
    exec (.rotBwd k .one (letter y)) s = .next { s with answer := answered 0 0 (0x41 + z.val) }

/-- R126 and R127: ROT_STEP, its encoding, errors and result: rotor k alone is written, and CARRY tells that its offset was
25. -/
def Obligations.RotStepAdvancesOneOffsetAndReportsCarry : Prop :=
  (∀ k, k < 256 → decode (BitVec.ofNat 32 (5 * 2 ^ 28 + k * 2 ^ 16)) = .ok (.rotStep k)) ∧
  (∀ cw s, (opField cw).toNat = 5 → (rsv1Field cw ≠ 0 ∨ rsv2Field cw ≠ 0 ∨ cntField cw ≠ 0 ∨ charField cw ≠ 0) →
    execute cw s = .next { s with answer := answered 3 0 0 }) ∧
  (∀ s k, s.cfgst = .unconfigured → exec (.rotStep k) s = .next { s with answer := answered 4 0 0 }) ∧
  (∀ (s : State) (st : Store) k, s.cfgst = .ready st → st.rotors.length ≤ k →
    exec (.rotStep k) s = .next { s with answer := answered 3 0 0 }) ∧
  (∀ (s : State) (st : Store) (k : Nat) (r : Rotor) (o : Idx), s.cfgst = .ready st → st.rotors[k]? = some r →
    (r.ofs.val = 25 → o.val = 0) → (r.ofs.val ≠ 25 → o.val = r.ofs.val + 1) →
    exec (.rotStep k) s = .next
      { s with cfgst := .ready { st with rotors := st.rotors.set k { r with ofs := o } }
               answer := answered 0 (if r.ofs.val = 25 then 1 else 0) 0 })

/-- R145 and R146: ENG_STEP, its encoding, errors and effect. -/
def Obligations.EngStepRipplesTheOffsets : Prop :=
  decode 0x60000000 = .ok .engStep ∧
  (∀ cw s, (opField cw).toNat = 6 → cw ≠ 0x60000000 → execute cw s = .next { s with answer := answered 3 0 0 }) ∧
  (∀ s, s.cfgst = .unconfigured → exec .engStep s = .next { s with answer := answered 4 0 0 }) ∧
  (∀ s st, s.cfgst = .ready st →
    ∃ rs' : List Rotor, Rippled st.rotors rs' ∧
      exec .engStep s = .next { s with cfgst := .ready { st with rotors := rs' }, answer := answered 0 0 0 })

/-- R141 and R142: PROCESS, its encoding, errors and effect, on tables that are bijections, as every table is after a valid
reset (R53, R207): the output is the pipeline's at the offsets before the step (R143), and the offsets then step as the
odometer does. What it does on other tables is the model's choice: CommandsWithoutACauseOfErrorSucceed. -/
def Obligations.ProcessEnciphersThenRipplesTheOffsets : Prop :=
  SymbolCommandChecks 7 .process ∧
  ∀ (s : State) (st : Store) (i : Idx), s.cfgst = .ready st → (∀ r ∈ st.rotors, r.table.Bijective) →
    ∃ (rs' : List Rotor) (forth back : Nat → Idx), Rippled st.rotors rs' ∧ Traced st i forth back ∧
      exec (.process .one (letter i)) s = .next
        { s with cfgst := .ready { st with rotors := rs' }
                 answer := answered 0 0 (0x41 + (lookup st.pb (back 0)).val) }

/-! ### Frames and whole-machine rules over the commands -/

/-- R20, R21, R27, R28: no command writes CFGST, NROT, a table, PB or RF, nor what the host has still to present. -/
def Obligations.CommandsLeaveConfigurationUnchanged : Prop :=
  ∀ cw s t, execute cw s = .next t →
    t.hostQueue = s.hostQueue ∧ (s.cfgst = .unconfigured → t.cfgst = .unconfigured) ∧
    ∀ st, s.cfgst = .ready st → ∃ st', t.cfgst = .ready st' ∧ SameWiring st st' ∧
      st'.rotors.length = st.rotors.length

/-- R56 and R108: the four substitution commands write no offset and no store, in every form, and are idempotent. -/
def Obligations.SubstitutionCommandsWriteNoState : Prop :=
  ∀ i, i.mnemonic ∈ [.pbSwap, .rfSwap, .rotFwd, .rotBwd] → ∀ s, ∃ t, exec i s = .next t ∧
    t.cfgst = s.cfgst ∧ t.hostQueue = s.hostQueue ∧ exec i t = .next t

/-- R172 and R178: a command that fails leaves the state as it was and answers its status alone; a failed reset leaves the
UNCONFIGURED state. -/
def Obligations.FailedCommandsWriteNoState : Prop :=
  (∀ cw s t rw, execute cw s = .next t → t.answer = some (.resultPort rw) → statusField rw ≠ 0 →
    t = { s with answer := t.answer } ∧ rw = BitVec.ofNat 32 ((statusField rw).toNat * 2 ^ 28)) ∧
  (∀ c s, (applyReset c s).answer = resetAnswered 2 → (applyReset c s).cfgst = .unconfigured)

/-- R180: when several causes apply, the first in its order is reported. -/
def Obligations.FirstCauseInPriorityOrderIsReported : Prop :=
  ∀ cw s,
    (decode cw = .error .illegalCommand → execute cw s = .next { s with answer := answered 3 0 0 }) ∧
    ∀ i, decode cw = .ok i →
      (s.cfgst = .unconfigured → execute cw s = .next { s with answer := answered 4 0 0 }) ∧
      ∀ st, s.cfgst = .ready st →
        (∀ k, i.rotorIndex = some k → st.rotors.length ≤ k →
          execute cw s = .next { s with answer := answered 3 0 0 }) ∧
        ((∀ k, i.rotorIndex = some k → k < st.rotors.length) →
          i.mnemonic.operandClass.usesSymbol = true → NotOneLetter i.symbolOperand.1 i.symbolOperand.2 →
            execute cw s = .next { s with answer := answered 1 0 0 })

/-- R177: no other error exists. On tables that are no bijections (no valid reset loads one) that ROT_BWD and PROCESS go on
is the model's choice, with a letter of which nothing is known (log 8). -/
def Obligations.CommandsWithoutACauseOfErrorSucceed : Prop :=
  ∀ (cw : Word) (s : State) (i : Instr) (st : Store), decode cw = .ok i → s.cfgst = .ready st →
    (∀ k, i.rotorIndex = some k → k < st.rotors.length) →
    (i.mnemonic.operandClass.usesSymbol = true → ¬ NotOneLetter i.symbolOperand.1 i.symbolOperand.2) →
    ∃ t rw, execute cw s = .next t ∧ t.answer = some (.resultPort rw) ∧ statusField rw = 0

/-- R83, with R81 and R82: the result word's fields, command by command, and the two words of the reset port. -/
def Obligations.ResultWordDrivesOnlyItsFields : Prop :=
  (∀ cw s, ∃ t rw, execute cw s = .next t ∧ t.answer = some (.resultPort rw) ∧ zeroField rw = 0 ∧
    (statusField rw).toNat ∈ [0, 1, 3, 4] ∧
    (statusField rw ≠ 0 → carryField rw = 0 ∧ symField rw = 0) ∧
    ((opField cw).toNat ≠ 5 → carryField rw = 0) ∧
    ((opField cw).toNat ∈ [5, 6] → symField rw = 0) ∧
    (statusField rw = 0 → (opField cw).toNat ∈ [1, 2, 3, 4, 7] →
      0x41 ≤ (symField rw).toNat ∧ (symField rw).toNat ≤ 0x5A)) ∧
  (∀ c s, (applyReset c s).answer = resetAnswered 0 ∨ (applyReset c s).answer = resetAnswered 2)

/-- R33: no command reads the previous result. -/
def Obligations.CommandsDoNotReadThePreviousResult : Prop :=
  ∀ cw s a, execute cw { s with answer := a } = execute cw s

/-- R75: with CNT other than 0b01, CHAR is not used. -/
def Obligations.CharIsUnusedUnlessOneCharacter : Prop :=
  ∀ cnt, cnt ≠ Count.one → ∀ (k : Nat) (c d : Byte) (s : State),
    exec (.pbSwap cnt c) s = exec (.pbSwap cnt d) s ∧ exec (.rfSwap cnt c) s = exec (.rfSwap cnt d) s ∧
    exec (.rotFwd k cnt c) s = exec (.rotFwd k cnt d) s ∧ exec (.rotBwd k cnt c) s = exec (.rotBwd k cnt d) s ∧
    exec (.process cnt c) s = exec (.process cnt d) s

/-! ### Steps -/

/-- R58 and R171: where the host's next access is a word that decodes, the step is its command, on the state whose queue has
that access taken off. -/
def Obligations.StepRunsTheDecodedCommand : Prop :=
  ∀ s cw rest i, s.hostQueue = .command cw :: rest → decode cw = .ok i →
    step s = exec i { s with hostQueue := rest }

/-- R30 and R62: the host presents commands, none is fetched; the word it presents next is the one the next step performs.
The queue, and that bits above `nbits` are 0, are the model's (logs 2 and 13). -/
def Obligations.PresentedWordIsPerformedNext : Prop :=
  ∀ s nbits w, w % 2 ^ nbits < 2 ^ 32 →
    (∀ i, decode (BitVec.ofNat 32 (w % 2 ^ nbits)) = .ok i → decodeTableWord nbits w = some i ∧
      step (s.withFetchWord nbits w) = exec i s) ∧
    (decode (BitVec.ofNat 32 (w % 2 ^ nbits)) = .error .illegalCommand → decodeTableWord nbits w = none ∧
      step (s.withFetchWord nbits w) = .next { s with answer := answered 3 0 0 })

/-- R224: every command and every reset completes; and a step stops for unserialised use alone (R220), and never with a
fault. The model's choices: with nothing presented a step answers a next state too (log 4), power-on is an access and
completes (log 6), and the queue is the model's own field (log 2). -/
def Obligations.StepStopsForUnserialisedUseAlone : Prop :=
  ∀ s, (∃ t, step s = .next t ∧ t.hostQueue = s.hostQueue.tail ∧ s.hostQueue.head? ≠ some .unserialised) ∨
    (step s = .refused .unserialisedUse ∧ s.hostQueue.head? = some .unserialised)

/-- Log 4, the model's choice: with nothing presented the block does nothing. -/
def Obligations.IdleStepChangesNothing : Prop := ∀ s, s.hostQueue = [] → step s = .next s

/-- R21 and R208: the state before the first reset, and after power is applied again, which is an access here (log 6). -/
def Obligations.PowerOnLeavesTheBlockUnconfigured : Prop :=
  State.reset.cfgst = .unconfigured ∧
  ∀ s rest, s.hostQueue = .powerOn :: rest → ∃ t, step s = .next t ∧ t.cfgst = .unconfigured ∧ t.hostQueue = rest

/-- R176: every decoded command is answered NotConfigured while CFGST is UNCONFIGURED. -/
def Obligations.UnconfiguredBlockAnswersNotConfigured : Prop :=
  ∀ i s, s.cfgst = .unconfigured → exec i s = .next { s with answer := answered 4 0 0 }

/-! ### Reset -/

/-- R203 and R205: reset answers OK and leaves READY exactly where the checks V1 to V5 pass, and else answers
InvalidConfiguration and leaves UNCONFIGURED. -/
def Obligations.ResetAcceptsExactlyTheValidRecords : Prop :=
  ∀ s c rest, s.hostQueue = .reset c :: rest → ∃ t, step s = .next t ∧ t.hostQueue = rest ∧
    (ChecksPass c → (∃ st, t.cfgst = .ready st) ∧ t.answer = resetAnswered 0) ∧
    (¬ ChecksPass c → t.cfgst = .unconfigured ∧ t.answer = resetAnswered 2)

/-- R202: what a valid reset writes. -/
def Obligations.ValidResetLoadsTheRecord : Prop :=
  ∀ s c rest, s.hostQueue = .reset c :: rest → ChecksPass c → ∃ st,
    step s = .next { cfgst := .ready st, hostQueue := rest, answer := resetAnswered 0 } ∧
    (st.rotors.length : Int) = c.nrot ∧
    (∀ (k : Nat) (t : List Int) (o : Int), c.table[k]? = some t → c.shift[k]? = some o → ∃ r : Rotor, st.rotors[k]? = some r ∧
      (r.ofs.val : Int) = o ∧ ∀ (i : Idx) (x : Int), t[i.val]? = some x → ((lookup r.table i).val : Int) = x) ∧
    IsPairMap c.plug st.pb ∧ IsPairMap c.refl st.rf

/-- R206: the map of a checked list of pairs, which depends neither on the order of the list nor on the order within a
pair. -/
def Obligations.PairMapDependsOnThePairsAlone : Prop :=
  ∀ ps, PairsOk ps → IsPairMap ps (mapOf ps) ∧
    ∀ qs, PairsOk qs → (∀ p, p ∈ qs ∨ p.swap ∈ qs ↔ p ∈ ps ∨ p.swap ∈ ps) → mapOf qs = mapOf ps

/-- R204: nothing of the state before a reset affects the state after it. -/
def Obligations.ResetForgetsTheStateBefore : Prop :=
  ∀ s s' c rest, s.hostQueue = .reset c :: rest → s'.hostQueue = .reset c :: rest → step s = step s'

/-- R207: what a valid record guarantees of the stores it loads: the tables are bijections, both maps are involutions, the
plugboard pairs exactly 2p indices, the reflector has no fixed point. -/
def Obligations.ValidResetEstablishesTheStoreInvariants : Prop :=
  ∀ c s, c.Valid → ∃ st, (applyReset c s).cfgst = .ready st ∧
    (∀ r ∈ st.rotors, r.table.Bijective) ∧ st.pb.Involutive ∧ st.rf.Involutive ∧ st.rf.FixedPointFree ∧
    ((List.finRange 26).filter fun i => lookup st.pb i != i).length = 2 * c.plug.length

/-- R207 over every access: from every state that meets the invariant, a step gives a state that meets it. -/
def Obligations.EveryStepKeepsTheInvariant : Prop := ∀ s t, s.Inv → step s = .next t → t.Inv

/-- The state before the first reset meets the invariant. -/
def Obligations.PowerOnStateMeetsTheInvariant : Prop := State.reset.Inv

/-- R201: the record built from seeds, the pair counts for which the build fails, and a shift's default. -/
def Obligations.SeedBuildGroupsTheGeneratedPermutation : Prop :=
  ∀ (g : Int → Idx → Idx) (S : SeedCfg),
    (∀ seed, ({ seed := seed } : RotorSeed).shift = 0) ∧
    ((S.pairCount < 0 ∨ 13 < S.pairCount) → S.build g = .error .invalidConfiguration) ∧
    (0 ≤ S.pairCount → S.pairCount ≤ 13 → ∃ c, S.build g = .ok c ∧
      c.nrot = (S.rotors.length : Int) ∧ c.table.length = S.rotors.length ∧ c.shift.length = S.rotors.length ∧
      (∀ (k : Nat) (r : RotorSeed), S.rotors[k]? = some r → c.shift[k]? = some r.shift ∧ ∃ t : List Int, c.table[k]? = some t ∧ t.length = 26 ∧
        ∀ i : Idx, t[i.val]? = some ((g r.seed i).val : Int)) ∧
      (c.refl.length = 13 ∧ ∀ (j : Nat) (a b : Idx), j < 13 → a.val = 2 * j → b.val = 2 * j + 1 →
        c.refl[j]? = some (((g S.reflectorSeed a).val : Int), ((g S.reflectorSeed b).val : Int))) ∧
      ((c.plug.length : Int) = S.pairCount ∧
        ∀ (j : Nat) (a b : Idx), (j : Int) < S.pairCount → a.val = 2 * j → b.val = 2 * j + 1 →
          c.plug[j]? = some (((g S.plugSeed a).val : Int), ((g S.plugSeed b).val : Int))))

/-- R207, last sentence, with R205: where GEN_PERM's results are bijections, a build with 1 to 256 rotors and shifts in 0..25
gives a valid record. -/
def Obligations.SeedBuildFromBijectionsIsValid : Prop :=
  ∀ (g : Int → Idx → Idx) (S : SeedCfg), (∀ seed, Function.Injective (g seed)) →
    1 ≤ S.rotors.length → S.rotors.length ≤ 256 → (∀ r ∈ S.rotors, 0 ≤ r.shift ∧ r.shift ≤ 25) →
    0 ≤ S.pairCount → S.pairCount ≤ 13 → ∃ c, S.build g = .ok c ∧ c.Valid

/-! ### The laws of the substitutions -/

/-- R53: the inverse lookup of a bijection is total, inverse to the table on both sides, and itself a bijection. -/
def Obligations.InverseLookupInvertsTheTable : Prop :=
  ∀ t : Table, t.Bijective → (∀ y, lookup t (inverseLookup t y) = y) ∧ (∀ j, inverseLookup t (lookup t j) = j) ∧
    Function.Bijective (inverseLookup t)

/-- R104: PB_SWAP undoes itself. -/
def Obligations.PbSwapIsAnInvolution : Prop :=
  ∀ (s : State) (st : Store) (x : Idx), s.cfgst = .ready st → st.Wf → ∃ (t : State) (y : Idx),
    exec (.pbSwap .one (letter x)) s = .next t ∧ t.answer = answered 0 0 (0x41 + y.val) ∧
    exec (.pbSwap .one (letter y)) t = .next { t with answer := answered 0 0 (0x41 + x.val) }

/-- R107: RF_SWAP undoes itself and never returns the letter it is given. -/
def Obligations.RfSwapIsAnInvolutionWithoutFixedPoint : Prop :=
  ∀ (s : State) (st : Store) (x : Idx), s.cfgst = .ready st → st.Wf → ∃ (t : State) (y : Idx),
    exec (.rfSwap .one (letter x)) s = .next t ∧ t.answer = answered 0 0 (0x41 + y.val) ∧ y ≠ x ∧
    exec (.rfSwap .one (letter y)) t = .next { t with answer := answered 0 0 (0x41 + x.val) }

/-- R125: at a fixed offset, ROT_BWD k undoes ROT_FWD k and the reverse. -/
def Obligations.RotorSubstitutionsAreMutuallyInverse : Prop :=
  ∀ (s : State) (st : Store) k (x : Idx), s.cfgst = .ready st → st.Wf → k < st.rotors.length →
    (∃ (t : State) (y : Idx), exec (.rotFwd k .one (letter x)) s = .next t ∧ t.answer = answered 0 0 (0x41 + y.val) ∧
      exec (.rotBwd k .one (letter y)) t = .next { t with answer := answered 0 0 (0x41 + x.val) }) ∧
    (∃ (t : State) (y : Idx), exec (.rotBwd k .one (letter x)) s = .next t ∧ t.answer = answered 0 0 (0x41 + y.val) ∧
      exec (.rotFwd k .one (letter y)) t = .next { t with answer := answered 0 0 (0x41 + x.val) })

/-- R144: at fixed offsets, enciphering twice gives the letter back, and no letter enciphers to itself. -/
def Obligations.ProcessIsReciprocalWithoutFixedPoint : Prop :=
  ∀ (s : State) (st : Store) (x : Idx), s.cfgst = .ready st → st.Wf → ∃ (t u : State) (y : Idx),
    exec (.process .one (letter x)) s = .next t ∧ t.answer = answered 0 0 (0x41 + y.val) ∧ y ≠ x ∧
    exec (.process .one (letter y)) s = .next u ∧ u.answer = answered 0 0 (0x41 + x.val) ∧ u.cfgst = t.cfgst

/-! ### The odometer -/

/-- R147: n ENG_STEP commands add n to the odometer value modulo 26^NROT, and the offsets repeat with period exactly
26^NROT. -/
def Obligations.EngStepCountsModuloTwentySixToTheRotors : Prop :=
  ∀ (s : State) (st : Store) (n : Nat) (rest : List Access), s.cfgst = .ready st → s.hostQueue = List.replicate n (.command 0x60000000) ++ rest →
    odometer st.rotors < 26 ^ st.rotors.length ∧
    ∃ (t : State) (st' : Store), Host.Core.run Sys2Proof.core n s = .next t ∧ t.hostQueue = rest ∧ t.cfgst = .ready st' ∧
      SameWiring st st' ∧ odometer st'.rotors = (odometer st.rotors + n) % 26 ^ st.rotors.length ∧
      (st' = st ↔ 26 ^ st.rotors.length ∣ n)

/-- R148: ROT_STEP k replaces digit k of the odometer value by its successor modulo 26 and carries into no other digit. -/
def Obligations.RotStepReplacesOneOdometerDigit : Prop :=
  ∀ (s : State) (st : Store) (k : Nat) (r : Rotor), s.cfgst = .ready st → st.rotors[k]? = some r → ∃ t st',
    exec (.rotStep k) s = .next t ∧ t.cfgst = .ready st' ∧ (∀ j, j ≠ k → st'.rotors[j]? = st.rotors[j]?) ∧
    odometer st'.rotors + 26 ^ k * r.ofs.val = odometer st.rotors + 26 ^ k * ((r.ofs.val + 1) % 26)

/-- R129: one step of a rotor, and twenty-six of them. -/
def Obligations.TwentySixStepsReturnARotorWithOneCarry : Prop :=
  ∀ r : Rotor,
    (r.ofs.val = 25 → r.stepped.ofs.val = 0 ∧ r.carries = true) ∧
    (r.ofs.val ≠ 25 → r.stepped.ofs.val = r.ofs.val + 1 ∧ r.carries = false) ∧
    Rotor.stepped^[26] r = r ∧
    ((List.range 26).filter fun n => (Rotor.stepped^[n] r).carries).length = 1

/-! ### Messages -/

/-- R150: the empty text; a character that processes, before the rest; a first character whose PROCESS fails, with any status;
so on an unconfigured block, where it is NotConfigured (R176), and after letters a READY block has processed, where it is
InvalidInput (R173). -/
def Obligations.MessageStopsAtTheFirstFailingCharacter : Prop :=
  (∀ s, processMany [] s = .next { out := [], status := 0, state := s }) ∧
  (∀ c cs s t rw m, execute (BitVec.ofNat 32 (7 * 2 ^ 28 + 1 * 2 ^ 8 + c.toNat)) s = .next t →
    t.answer = some (.resultPort rw) → statusField rw = 0 → processMany cs t = .next m →
    processMany (c :: cs) s = .next { m with out := symField rw :: m.out }) ∧
  (∀ c cs s t rw, execute (BitVec.ofNat 32 (7 * 2 ^ 28 + 1 * 2 ^ 8 + c.toNat)) s = .next t →
    t.answer = some (.resultPort rw) → statusField rw ≠ 0 →
    processMany (c :: cs) s = .next { out := [], status := statusField rw, state := t }) ∧
  (∀ c cs s, s.cfgst = .unconfigured →
    processMany (c :: cs) s = .next { out := [], status := 4, state := { s with answer := answered 4 0 0 } }) ∧
  (∀ (s : State) (st : Store) (pre : List Idx) (c : Byte) (post : List Byte), s.cfgst = .ready st → NotOneLetter .one c →
    ∃ out t, processMany (pre.map letter) s = .next { out := out, status := 0, state := t } ∧
      processMany (pre.map letter ++ c :: post) s =
        .next { out := out, status := 1, state := { t with answer := answered 1 0 0 } })

/-- R151 and R152: a message of n letters gives n letters, leaves the odometer n further on, and enciphers letter j at the
odometer value j further on; two resets with one record and the same message give the same output. -/
def Obligations.MessageAdvancesTheOdometerByItsLength : Prop :=
  (∀ (s : State) (st : Store) (text : List Idx), s.cfgst = .ready st → ∃ out t st',
    processMany (text.map letter) s = .next { out := out, status := 0, state := t } ∧
    out.length = text.length ∧ t.cfgst = .ready st' ∧ SameWiring st st' ∧
    odometer st'.rotors = (odometer st.rotors + text.length) % 26 ^ st.rotors.length ∧
    ∀ (j : Nat) (x : Idx), text[j]? = some x → ∃ stj, SameWiring st stj ∧ stj.rotors.length = st.rotors.length ∧
      odometer stj.rotors = (odometer st.rotors + j) % 26 ^ st.rotors.length ∧
      out[j]? = some (letter (pipe stj x))) ∧
  (∀ c s s' text m, processMany text (applyReset c s) = .next m →
    ∃ m', processMany text (applyReset c s') = .next m' ∧ m'.out = m.out ∧ m'.status = m.status)

/-- R149: a block deciphers what another block, reset with the same record, enciphered; and no letter of the ciphertext is
the message's at its place. -/
def Obligations.SecondBlockDeciphersTheFirst : Prop :=
  ∀ c (a b : State) (text : List Idx), c.Valid → ∃ (cipher : List Idx) (ta tb : State),
    processMany (text.map letter) (applyReset c a) = .next { out := cipher.map letter, status := 0, state := ta } ∧
    processMany (cipher.map letter) (applyReset c b) = .next { out := text.map letter, status := 0, state := tb } ∧
    ta.cfgst = tb.cfgst ∧ cipher.length = text.length ∧
    ∀ (j : Nat) (x y : Idx), text[j]? = some x → cipher[j]? = some y → x ≠ y

/-- R58 and R150: PROCESS_MANY is the run of the machine over the PROCESS words of the text. -/
def Obligations.MessageIsTheRunOfItsProcessWords : Prop :=
  ∀ (s : State) (st : Store) (text : List Idx) (rest : List Access), s.cfgst = .ready st →
    s.hostQueue = (text.map fun x => .command (processWord (letter x))) ++ rest →
    ∃ m, processMany (text.map letter) { s with hostQueue := rest } = .next m ∧
      Host.Core.run Sys2Proof.core text.length s = .next m.state
end

