-- ==== Sys2Proof/Laws/Decode.lean ====
section
/-! SUPPORT. The fields of an assembled command word, and a word rebuilt from its fields (R70, R84). -/

namespace Sys2Proof

/-- The fields of the word `(OP << 28) + (RIDX << 16) + (CNT << 8) + CHAR` read back. -/
theorem fields_of_sum {op k c h : Nat} (hop : op < 16) (hk : k < 256) (hc : c < 4) (hh : h < 256) :
    let cw : Word := BitVec.ofNat 32 ((op <<< 28) + (k <<< 16) + (c <<< 8) + h)
    (opField cw).toNat = op ∧ rsv1Field cw = 0 ∧ (ridxField cw).toNat = k ∧ rsv2Field cw = 0 ∧
      (cntField cw).toNat = c ∧ (charField cw).toNat = h := by
  have hn : ((op <<< 28) + (k <<< 16) + (c <<< 8) + h) % 2 ^ 32 =
      op * 268435456 + k * 65536 + c * 256 + h := by
    simp only [Nat.shiftLeft_eq]; omega
  refine ⟨?_, BitVec.eq_of_toNat_eq ?_, ?_, BitVec.eq_of_toNat_eq ?_, ?_, ?_⟩ <;>
    simp only [opField, rsv1Field, ridxField, rsv2Field, cntField, charField, BitVec.extractLsb'_toNat,
      BitVec.toNat_ofNat, hn, Nat.shiftRight_eq_div_pow, BitVec.ofNat_eq_ofNat, Nat.zero_mod] <;> omega

/-- A word is the sum of its six fields, each at its place (R70). -/
theorem word_toNat (cw : Word) :
    cw.toNat = (opField cw).toNat * 2 ^ 28 + (rsv1Field cw).toNat * 2 ^ 24 + (ridxField cw).toNat * 2 ^ 16 +
      (rsv2Field cw).toNat * 2 ^ 10 + (cntField cw).toNat * 2 ^ 8 + (charField cw).toNat := by
  have := cw.isLt
  simp only [opField, rsv1Field, ridxField, rsv2Field, cntField, charField,
    BitVec.extractLsb'_toNat, Nat.shiftRight_eq_div_pow]
  omega

@[simp] theorem Count.code_lt (c : Count) : c.code < 3 := by cases c <;> decide

theorem countOf_code {cnt : BitVec 2} {c : Count} (h : cnt.toNat = c.code) : countOf cnt = some c := by
  unfold countOf; rw [h]; cases c <;> rfl

theorem countOf_eq_some {cnt : BitVec 2} {c : Count} (h : countOf cnt = some c) : cnt.toNat = c.code := by
  unfold countOf at h; split at h <;> cases h <;> assumption

theorem mnemonicOf_opcode {op : BitVec 4} {m : Mnemonic} (h : op.toNat = m.opcode) : mnemonicOf op = some m := by
  unfold mnemonicOf; rw [h]; cases m <;> rfl

theorem mnemonicOf_eq_some {op : BitVec 4} {m : Mnemonic} (h : mnemonicOf op = some m) : op.toNat = m.opcode := by
  unfold mnemonicOf at h; split at h <;> cases h <;> assumption

/-- A word whose fields are those of a command decodes to it. -/
theorem decode_of_fields {cw : Word} {i : Instr} (hop : (opField cw).toNat = i.mnemonic.opcode)
    (h1 : rsv1Field cw = 0) (hk : (ridxField cw).toNat = i.ridx) (h2 : rsv2Field cw = 0)
    (hcnt : (cntField cw).toNat = i.symbolOperand.1.code) (hchar : charField cw = i.symbolOperand.2) :
    decode cw = .ok i := by
  have hr : ridxField cw = 0#8 ↔ i.ridx = 0 := by rw [← hk, ← BitVec.toNat_inj]; simp
  have hc : cntField cw = 0#2 ↔ i.symbolOperand.1.code = 0 := by rw [← hcnt, ← BitVec.toNat_inj]; simp
  have hm : mustBeFieldsOk i.mnemonic.operandClass cw = true := by
    simp only [mustBeFieldsOk, hchar]
    cases i <;>
      simp [Instr.mnemonic, Mnemonic.operandClass, OperandClass.usesRotor, OperandClass.usesSymbol, hr, hc,
        Instr.ridx, Instr.rotorIndex, Instr.symbolOperand, Count.code]
  unfold decode
  simp only [mnemonicOf_opcode hop, countOf_code hcnt, h1, h2, hm, ne_eq, not_true, or_self, if_false, if_true, hk,
    hchar]
  cases i <;> rfl

/-- Everything a word that decodes has: its mnemonic's opcode, zero reserved fields, a CNT of R74, its class's "must be"
fields; and the command is made of its operand fields (R77). -/
theorem decode_ok {cw : Word} {i : Instr} (h : decode cw = .ok i) :
    ∃ m c, (opField cw).toNat = m.opcode ∧ rsv1Field cw = 0 ∧ rsv2Field cw = 0 ∧
      (cntField cw).toNat = c.code ∧ mustBeFieldsOk m.operandClass cw = true ∧
      i = assembleInstr m (ridxField cw).toNat c (charField cw) := by
  unfold decode at h
  split at h
  · cases h
  · rename_i m hm
    split at h
    · cases h
    · rename_i hr
      split at h
      · cases h
      · rename_i c hc
        split at h
        · rename_i hk
          cases h
          simp only [ne_eq, not_or, not_not] at hr
          exact ⟨m, c, mnemonicOf_eq_some hm, hr.1, hr.2, countOf_eq_some hc, hk, rfl⟩
        · cases h

theorem Mnemonic.opcode_lt (m : Mnemonic) : m.opcode < 16 := by cases m <;> decide

end Sys2Proof
end

