-- ==== Sys2Proof/Laws/State.lean ====
section
/-! SUPPORT. One lemma per field per update of State, Store and Rotor, so that no proof unfolds a record update. -/

namespace Sys2Proof.Machine

@[simp] theorem State.raise_cfgst (s : State) (e : Err) : (s.raise e).cfgst = s.cfgst := rfl
@[simp] theorem State.raise_hostQueue (s : State) (e : Err) : (s.raise e).hostQueue = s.hostQueue := rfl
@[simp] theorem State.raise_answer (s : State) (e : Err) : (s.raise e).answer = some (.resultPort e.word) := rfl

@[simp] theorem State.complete_cfgst (s : State) (st : Store) (r : Reply) : (s.complete st r).cfgst = .ready st := rfl
@[simp] theorem State.complete_hostQueue (s : State) (st : Store) (r : Reply) :
    (s.complete st r).hostQueue = s.hostQueue := rfl
@[simp] theorem State.complete_answer (s : State) (st : Store) (r : Reply) :
    (s.complete st r).answer = some (.resultPort r.word) := rfl

@[simp] theorem State.present_cfgst (s : State) (cw : Word) : (s.present cw).cfgst = s.cfgst := rfl
@[simp] theorem State.present_hostQueue (s : State) (cw : Word) :
    (s.present cw).hostQueue = .command cw :: s.hostQueue := rfl
@[simp] theorem State.present_answer (s : State) (cw : Word) : (s.present cw).answer = s.answer := rfl

@[simp] theorem State.reset_cfgst : State.reset.cfgst = .unconfigured := rfl
@[simp] theorem State.reset_hostQueue : State.reset.hostQueue = [] := rfl
@[simp] theorem State.reset_answer : State.reset.answer = none := rfl

@[simp] theorem Store.stepRotor_rotors (st : Store) (k : Nat) (r : Rotor) :
    (st.stepRotor k r).rotors = st.rotors.set k r.stepped := rfl
@[simp] theorem Store.stepRotor_pb (st : Store) (k : Nat) (r : Rotor) : (st.stepRotor k r).pb = st.pb := rfl
@[simp] theorem Store.stepRotor_rf (st : Store) (k : Nat) (r : Rotor) : (st.stepRotor k r).rf = st.rf := rfl

@[simp] theorem Store.engineStep_rotors (st : Store) : st.engineStep.rotors = rippleStep st.rotors := rfl
@[simp] theorem Store.engineStep_pb (st : Store) : st.engineStep.pb = st.pb := rfl
@[simp] theorem Store.engineStep_rf (st : Store) : st.engineStep.rf = st.rf := rfl

/-- The offset after `step_k` (R126). -/
theorem Rotor.stepped_ofs_val (r : Rotor) :
    r.stepped.ofs.val = if r.ofs.val = 25 then 0 else r.ofs.val + 1 := by
  unfold Rotor.stepped; split <;> simp [*]

@[simp] theorem Rotor.stepped_table (r : Rotor) : r.stepped.table = r.table := by
  unfold Rotor.stepped; split <;> rfl

theorem Rotor.carries_iff (r : Rotor) : r.carries = true ↔ r.ofs.val = 25 := by
  simp [Rotor.carries]

end Sys2Proof.Machine
end

