-- ==== Sys2Proof/Laws/Ops.lean ====
section
/-! SUPPORT. One lemma for each shared operation, saying what it does; callers cite it and do not unfold the operation. -/

namespace Sys2Proof.Machine

/-! ### Index arithmetic and table reads -/

@[simp] theorem addMod_val (i o : Idx) : (addMod i o).val = (i.val + o.val) % 26 := rfl

theorem subMod_val (j o : Idx) : ((subMod j o).val : Int) = ((j.val : Int) - o.val) % 26 := by
  simp only [subMod]; omega

@[simp] theorem subMod_addMod (i o : Idx) : subMod (addMod i o) o = i := by
  apply Fin.ext; have := subMod_val (addMod i o) o; simp only [addMod_val] at this; omega

@[simp] theorem addMod_subMod (j o : Idx) : addMod (subMod j o) o = j := by
  apply Fin.ext; have := subMod_val j o; simp only [addMod_val]; omega

@[simp] theorem lookup_tableOf (f : Idx → Idx) (i : Idx) : lookup (tableOf f) i = f i := by
  simp [lookup, tableOf]

/-- The inverse lookup finds the position, where the table holds the index once (R53). -/
theorem inverseLookup_of_unique {t : Table} {y j : Idx} (hj : lookup t j = y)
    (huniq : ∀ i, lookup t i = y → i = j) : inverseLookup t y = j := by
  have hf : (List.finRange 26).filter (fun i => lookup t i == y) = [j] := by
    have hp : (fun i : Idx => lookup t i == y) = fun i => i == j := by
      funext i
      by_cases h : i = j
      · simp [h, hj]
      · simp only [beq_eq_false_iff_ne.mpr h, beq_eq_false_iff_ne]
        exact fun e => h (huniq i e)
    rw [hp, List.filter_beq]
    rw [List.count_eq_one_of_mem (List.nodup_finRange 26) (List.mem_finRange j)]
    rfl
  unfold inverseLookup; rw [hf]

/-! ### Operand checks -/

theorem sym_toNat (i : Idx) : (sym i).toNat = 0x41 + i.val := by
  have := i.isLt
  simp only [sym, Config.symbolBase, BitVec.toNat_ofNat]; omega

/-- The symbol check passes on one letter (R101). -/
theorem checkSym_sym (i : Idx) : checkSym .one (sym i) = .ok i := by
  have h := sym_toNat i; have := i.isLt
  unfold checkSym
  rw [if_neg (by simp), dif_pos (by omega)]
  simp only [h, Nat.add_sub_cancel_left]

/-- The symbol check fails on anything else (R101, R173). -/
theorem checkSym_error {cnt : Count} {char : Byte}
    (h : cnt ≠ .one ∨ char.toNat < 0x41 ∨ 0x5A < char.toNat) : checkSym cnt char = .error .invalidInput := by
  unfold checkSym
  split
  · rfl
  · rename_i hc
    have hl := h.resolve_left hc
    rw [dif_neg (by omega)]

/-- The symbol check has these two outcomes. -/
theorem checkSym_cases (cnt : Count) (char : Byte) :
    (∃ i, cnt = .one ∧ char = sym i ∧ checkSym cnt char = .ok i) ∨
    ((cnt ≠ .one ∨ char.toNat < 0x41 ∨ 0x5A < char.toNat) ∧ checkSym cnt char = .error .invalidInput) := by
  by_cases hc : cnt = .one
  · by_cases hl : 0x41 ≤ char.toNat ∧ char.toNat ≤ 0x5A
    · refine .inl ⟨⟨char.toNat - 0x41, by omega⟩, hc, ?_, ?_⟩
      · apply BitVec.eq_of_toNat_eq; rw [sym_toNat]; simp only; omega
      · simp [checkSym, hc, hl]
    · have h : cnt ≠ .one ∨ char.toNat < 0x41 ∨ 0x5A < char.toNat := by omega
      exact .inr ⟨h, checkSym_error h⟩
  · exact .inr ⟨.inl hc, checkSym_error (.inl hc)⟩

@[simp] theorem withSym_sym {α : Type} (i : Idx) (f : Idx → Except Err α) : withSym .one (sym i) f = f i := by
  simp [withSym, checkSym_sym]

theorem withSym_error {α : Type} {cnt : Count} {char : Byte} (f : Idx → Except Err α)
    (h : cnt ≠ .one ∨ char.toNat < 0x41 ∨ 0x5A < char.toNat) : withSym cnt char f = .error .invalidInput := by
  simp [withSym, checkSym_error h]

theorem withRotor_some {α : Type} {k : Nat} {st : Store} {r : Rotor} (h : st.rotors[k]? = some r)
    (f : Rotor → Except Err α) : withRotor k st f = f r := by
  simp [withRotor, h]

/-- The rotor-index check fails where `k >= NROT` (R78). -/
theorem withRotor_error {α : Type} {k : Nat} {st : Store} (h : st.nrot ≤ k) (f : Rotor → Except Err α) :
    withRotor k st f = .error .illegalCommand := by
  simp [withRotor, List.getElem?_eq_none (by simpa [Store.nrot] using h : st.rotors.length ≤ k)]

/-! ### The odometer step -/

@[simp] theorem rippleStep_length (rs : List Rotor) : (rippleStep rs).length = rs.length := by
  induction rs with
  | nil => rfl
  | cons r rs ih => simp only [rippleStep]; split <;> simp [ih]

@[simp] theorem rippleStep_map_table (rs : List Rotor) :
    (rippleStep rs).map Rotor.table = rs.map Rotor.table := by
  induction rs with
  | nil => rfl
  | cons r rs ih => simp only [rippleStep]; split <;> simp [ih]

/-! ### The execution skeleton -/

/-- Everything the skeleton can do (R171, R172). -/
theorem runCommand_cases {body : Store → Except Err (Store × Reply)} {s t : State}
    (h : runCommand body s = .next t) :
    (s.cfgst = .unconfigured ∧ t = s.raise .notConfigured) ∨
    (∃ st e, s.cfgst = .ready st ∧ body st = .error e ∧ t = s.raise e) ∨
    (∃ st st' r, s.cfgst = .ready st ∧ body st = .ok (st', r) ∧ t = s.complete st' r) := by
  unfold runCommand at h
  split at h
  · rename_i hc; cases h; exact .inl ⟨hc, rfl⟩
  · rename_i st hc
    split at h
    · rename_i e hb; cases h; exact .inr (.inl ⟨st, e, hc, hb, rfl⟩)
    · rename_i st' r hb; cases h; exact .inr (.inr ⟨st, st', r, hc, hb, rfl⟩)

theorem runCommand_unconfigured {s : State} (h : s.cfgst = .unconfigured)
    (body : Store → Except Err (Store × Reply)) : runCommand body s = .next (s.raise .notConfigured) := by
  simp [runCommand, h]

theorem runCommand_error {s : State} {st : Store} {e : Err} {body : Store → Except Err (Store × Reply)}
    (h : s.cfgst = .ready st) (hb : body st = .error e) : runCommand body s = .next (s.raise e) := by
  simp [runCommand, h, hb]

theorem runCommand_ok {s : State} {st st' : Store} {r : Reply} {body : Store → Except Err (Store × Reply)}
    (h : s.cfgst = .ready st) (hb : body st = .ok (st', r)) : runCommand body s = .next (s.complete st' r) := by
  simp [runCommand, h, hb]

/-- The skeleton always answers a next state. -/
theorem runCommand_next (body : Store → Except Err (Store × Reply)) (s : State) :
    ∃ t, runCommand body s = .next t := by
  unfold runCommand; split
  · exact ⟨_, rfl⟩
  · split <;> exact ⟨_, rfl⟩

end Sys2Proof.Machine
end

