-- ==== Sys2Proof/Laws/Execute.lean ====
section
/-! SUPPORT. What `exec`, `execute` and `step` can do, said once. -/

namespace Sys2Proof.Machine

/-- The checks and effect of a command on a READY block, apart from the skeleton around them. -/
def commandBody : Instr → Store → Except Err (Store × Reply)
  | .pbSwap cnt char, st => withSym cnt char fun i => .ok (st, { sym := sym (lookup st.pb i) })
  | .rfSwap cnt char, st => withSym cnt char fun i => .ok (st, { sym := sym (lookup st.rf i) })
  | .rotFwd k cnt char, st => withRotor k st fun r => withSym cnt char fun i => .ok (st, { sym := sym (r.fwd i) })
  | .rotBwd k cnt char, st => withRotor k st fun r => withSym cnt char fun i => .ok (st, { sym := sym (r.bwd i) })
  | .rotStep k, st => withRotor k st fun r => .ok (st.stepRotor k r, { carry := r.carries })
  | .engStep, st => .ok (st.engineStep, {})
  | .process cnt char, st => withSym cnt char fun i => .ok (st.engineStep, { sym := sym (pipe st i) })

/-- Every command is its body inside the one skeleton (R171). -/
theorem exec_eq_runCommand (i : Instr) (s : State) : exec i s = runCommand (commandBody i) s := by
  cases i <;> rfl

theorem execute_of_decode {cw : Word} {i : Instr} (h : decode cw = .ok i) (s : State) : execute cw s = exec i s := by
  simp [execute, h]

theorem execute_of_reject {cw : Word} {e : DecodeReject} (h : decode cw = .error e) (s : State) :
    execute cw s = .next (s.raise .illegalCommand) := by
  simp [execute, h]

/-- Every command word is answered with a next state and a word on the result port (R80). -/
theorem execute_answers (cw : Word) (s : State) :
    ∃ t rw, execute cw s = .next t ∧ t.answer = some (.resultPort rw) := by
  rcases hd : decode cw with e | i
  · exact ⟨_, _, execute_of_reject hd s, rfl⟩
  · rw [execute_of_decode hd, exec_eq_runCommand]
    obtain ⟨t, ht⟩ := runCommand_next (commandBody i) s
    refine ⟨t, ?_⟩
    rcases runCommand_cases ht with ⟨_, rfl⟩ | ⟨_, _, _, _, rfl⟩ | ⟨_, _, _, _, _, rfl⟩ <;> exact ⟨_, ht, rfl⟩

@[simp] theorem performAccess_command (cw : Word) (s : State) : performAccess (.command cw) s = execute cw s := rfl
@[simp] theorem performAccess_reset (c : Cfg) (s : State) : performAccess (.reset c) s = .next (applyReset c s) := rfl
@[simp] theorem performAccess_powerOn (s : State) : performAccess .powerOn s = .next (applyPowerOn s) := rfl
@[simp] theorem performAccess_unserialised (s : State) :
    performAccess .unserialised s = .refused .unserialisedUse := rfl

theorem step_nil {s : State} (h : s.hostQueue = []) : step s = .next s := by
  simp [step, performNext, h]

theorem step_cons {s : State} {a : Access} {rest : List Access} (h : s.hostQueue = a :: rest) :
    step s = performAccess a { s with hostQueue := rest } := by
  simp [step, performNext, h]

/-- A run of one step more, of any machine, where the first answers a next state. -/
theorem core_run_succ (M : Host.Core) {s t : M.State} (h : M.step s = .next t) (n : Nat) :
    M.run (n + 1) s = M.run n t := by
  simp only [Host.Core.run, h]

/-- The same of the block. -/
theorem run_succ_of_step {s t : State} (h : step s = .next t) (n : Nat) :
    Host.Core.run Sys2Proof.core (n + 1) s = Host.Core.run Sys2Proof.core n t :=
  core_run_succ Sys2Proof.core h n

/-- Everything a step that answers a next state can be. -/
theorem step_cases {s t : State} (h : step s = .next t) :
    (s.hostQueue = [] ∧ t = s) ∨
    (∃ cw rest, s.hostQueue = .command cw :: rest ∧ execute cw { s with hostQueue := rest } = .next t) ∨
    (∃ c rest, s.hostQueue = .reset c :: rest ∧ t = applyReset c { s with hostQueue := rest }) ∨
    (∃ rest, s.hostQueue = .powerOn :: rest ∧ t = applyPowerOn { s with hostQueue := rest }) := by
  rcases hq : s.hostQueue with _ | ⟨a, rest⟩
  · rw [step_nil hq] at h; cases h; exact .inl ⟨rfl, rfl⟩
  · rw [step_cons hq] at h
    cases a with
    | command cw => exact .inr (.inl ⟨cw, rest, rfl, h⟩)
    | reset c => cases h; exact .inr (.inr (.inl ⟨c, rest, rfl, rfl⟩))
    | powerOn => cases h; exact .inr (.inr (.inr ⟨rest, rfl, rfl⟩))
    | unserialised => cases h

end Sys2Proof.Machine
end

