-- ==== Sys2Proof/Laws/PerInstr.lean ====
section
/-! SUPPORT. Per-instruction statements about the commands as syntax, one lemma per constructor. -/

namespace Sys2Proof.Laws

/-- The fields of a command's word are its opcode, its rotor index, its CNT and its CHAR, and the reserved fields are 0. -/
def FieldsReadBack.Statement (i : Instr) : Prop :=
  i.wellFormed = true →
    (opField (encode i)).toNat = i.mnemonic.opcode ∧ rsv1Field (encode i) = 0 ∧
    (ridxField (encode i)).toNat = i.ridx ∧ rsv2Field (encode i) = 0 ∧
    (cntField (encode i)).toNat = i.symbolOperand.1.code ∧ charField (encode i) = i.symbolOperand.2

/-- What the seven lemmas below share: the rotor index fits its field. -/
theorem fieldsReadBack_of_ridx {i : Instr} (hk : i.ridx < 256) :
    (opField (encode i)).toNat = i.mnemonic.opcode ∧ rsv1Field (encode i) = 0 ∧
    (ridxField (encode i)).toNat = i.ridx ∧ rsv2Field (encode i) = 0 ∧
    (cntField (encode i)).toNat = i.symbolOperand.1.code ∧ charField (encode i) = i.symbolOperand.2 := by
  obtain ⟨h1, h2, h3, h4, h5, h6⟩ := fields_of_sum i.mnemonic.opcode_lt hk
    (Nat.lt_succ_of_lt i.symbolOperand.1.code_lt) i.symbolOperand.2.isLt
  exact ⟨h1, h2, h3, h4, h5, BitVec.eq_of_toNat_eq h6⟩

theorem FieldsReadBack.pbSwap (cnt : Count) (char : Byte) : FieldsReadBack.Statement (.pbSwap cnt char) :=
  fun _ => fieldsReadBack_of_ridx (by decide : (0 : Nat) < 256)

theorem FieldsReadBack.rfSwap (cnt : Count) (char : Byte) : FieldsReadBack.Statement (.rfSwap cnt char) :=
  fun _ => fieldsReadBack_of_ridx (by decide : (0 : Nat) < 256)

theorem FieldsReadBack.rotFwd (k : Nat) (cnt : Count) (char : Byte) : FieldsReadBack.Statement (.rotFwd k cnt char) :=
  fun h => fieldsReadBack_of_ridx (of_decide_eq_true h : k < 256)

theorem FieldsReadBack.rotBwd (k : Nat) (cnt : Count) (char : Byte) : FieldsReadBack.Statement (.rotBwd k cnt char) :=
  fun h => fieldsReadBack_of_ridx (of_decide_eq_true h : k < 256)

theorem FieldsReadBack.rotStep (k : Nat) : FieldsReadBack.Statement (.rotStep k) :=
  fun h => fieldsReadBack_of_ridx (of_decide_eq_true h : k < 256)

theorem FieldsReadBack.engStep : FieldsReadBack.Statement .engStep :=
  fun _ => fieldsReadBack_of_ridx (by decide : (0 : Nat) < 256)

theorem FieldsReadBack.process (cnt : Count) (char : Byte) : FieldsReadBack.Statement (.process cnt char) :=
  fun _ => fieldsReadBack_of_ridx (by decide : (0 : Nat) < 256)

end Sys2Proof.Laws
end

