-- ==== Sys2Proof/Tests/Slice0.lean ====
section
/-! SUPPORT. The model's own tests, with results from 95_test_vectors.md (V-...) and from the encodings of 30_encoding.md,
and for every obligation with hypotheses a witness that meets them. -/

open Sys2Proof Sys2Proof.Machine Sys2Proof.Claims

namespace Sys2Proof.Tests

/-! ### The configuration CFG-A of 95_test_vectors.md, as loaded and as a record -/

def tableA0 : Table := #v[1, 2, 3, 4, 5, 6, 7, 8, 9, 10, 11, 12, 13, 14, 15, 16, 17, 18, 19, 20, 21, 22, 23, 24, 25, 0]
def tableA1 : Table := #v[25, 24, 23, 22, 21, 20, 19, 18, 17, 16, 15, 14, 13, 12, 11, 10, 9, 8, 7, 6, 5, 4, 3, 2, 1, 0]
def tableA2 : Table := #v[0, 3, 6, 9, 12, 15, 18, 21, 24, 1, 4, 7, 10, 13, 16, 19, 22, 25, 2, 5, 8, 11, 14, 17, 20, 23]
def inverseA0 : Table := #v[25, 0, 1, 2, 3, 4, 5, 6, 7, 8, 9, 10, 11, 12, 13, 14, 15, 16, 17, 18, 19, 20, 21, 22, 23, 24]
def inverseA2 : Table := #v[0, 9, 18, 1, 10, 19, 2, 11, 20, 3, 12, 21, 4, 13, 22, 5, 14, 23, 6, 15, 24, 7, 16, 25, 8, 17]
def plugA : Table := #v[25, 24, 2, 3, 4, 5, 6, 7, 8, 9, 10, 11, 12, 13, 14, 15, 16, 17, 18, 19, 20, 21, 22, 23, 1, 0]
def reflA : Table := #v[1, 0, 3, 2, 5, 4, 7, 6, 9, 8, 11, 10, 13, 12, 15, 14, 17, 16, 19, 18, 21, 20, 23, 22, 25, 24]

/-- CFG-A's stores, at the offsets given. -/
def storeA (a b c : Idx) : Store := { rotors := [⟨tableA0, a⟩, ⟨tableA1, b⟩, ⟨tableA2, c⟩], pb := plugA, rf := reflA }

/-- A block that holds them, with nothing more presented. -/
def stateA (a b c : Idx) : State := { cfgst := .ready (storeA a b c), hostQueue := [], answer := none }

/-- The reflector pairs (A,B), (C,D), ..., (Y,Z). -/
def pairsA : List (Int × Int) :=
  [(0, 1), (2, 3), (4, 5), (6, 7), (8, 9), (10, 11), (12, 13), (14, 15), (16, 17), (18, 19), (20, 21), (22, 23), (24, 25)]

/-- A table of integers from a table store. -/
def entries (t : Table) : List Int := t.toList.map fun i => (i.val : Int)

/-- The record CFG-A with the shifts given. -/
def cfgA (shift : List Int) : Cfg :=
  { nrot := 3, table := [entries tableA0, entries tableA1, entries tableA2], shift := shift, refl := pairsA,
    plug := [(0, 25), (1, 24)] }

/-- CFG-A with 12 reflector pairs (V-R10). -/
def cfgBad : Cfg := { cfgA [0, 0, 0] with refl := pairsA.take 12 }

/-- The state a step or command answers, where it answers one. -/
def nextOf : Host.Outcome State Fault Refusal → Option State
  | .next t => some t
  | .fault _ => none
  | .refused _ => none

/-- The next state after an outcome is the one given. -/
theorem eq_next_of_nextOf {o : Host.Outcome State Fault Refusal} {t : State} (h : nextOf o = some t) : o = .next t := by
  cases o with
  | next u => exact congrArg _ (Option.some.inj h)
  | fault f => cases h
  | refused r => cases h

/-- The word on the result port after a command word, and the offsets it leaves. -/
def result (cw : Word) (s : State) : Option (Option Answer × Option (List Idx)) :=
  (nextOf (execute cw s)).map fun t => (t.answer, t.offsets?)

/-- The result word `rw` and the offsets `ofs`. -/
def gives (rw : Word) (ofs : List Idx) : Option (Option Answer × Option (List Idx)) :=
  some (some (.resultPort rw), some ofs)

/-! ### Well-formedness: the one check, refused -/

theorem test_wellformed_rejects_index_256 :
    (Instr.rotFwd 256 .one 0x41).wellFormed = false ∧ (Instr.rotBwd 256 .one 0x41).wellFormed = false ∧
    (Instr.rotStep 256).wellFormed = false ∧ (Instr.rotStep 255).wellFormed = true := by decide

/-! ### Decoding: words written out from 30_encoding.md -/

/-- OP = 1, CNT = 01, CHAR = `A`; R72, R74. -/
theorem test_decode_pb_swap : decode 0b0001_0000_00000000_000000_01_01000001 = .ok (.pbSwap .one 0x41) := by decide
/-- OP = 2, CNT = 10, CHAR = 0x7A. -/
theorem test_decode_rf_swap : decode 0b0010_0000_00000000_000000_10_01111010 = .ok (.rfSwap .several 0x7A) := by decide
/-- R84's example. -/
theorem test_decode_rot_fwd : decode 0b0011_0000_00000010_000000_01_01001000 = .ok (.rotFwd 2 .one 0x48) := by decide
/-- OP = 4, RIDX = 255, CNT = 00, CHAR = 0x80. -/
theorem test_decode_rot_bwd : decode 0b0100_0000_11111111_000000_00_10000000 = .ok (.rotBwd 255 .zero 0x80) := by decide
/-- R84's example. -/
theorem test_decode_rot_step : decode 0b0101_0000_00000001_000000_00_00000000 = .ok (.rotStep 1) := by decide
/-- R146: the single word 0x60000000. -/
theorem test_decode_eng_step : decode 0b0110_0000_00000000_000000_00_00000000 = .ok .engStep := by decide
/-- R84's example, `PROCESS ""`. -/
theorem test_decode_process : decode 0b0111_0000_00000000_000000_00_00000000 = .ok (.process .zero 0) := by decide
/-- V-D1 to V-D11. -/
theorem test_decode_rejects : ([0x00000000, 0x80000000, 0xF0000141, 0x11000141, 0x10000541, 0x10010141, 0x7000037A,
    0x50000100, 0x50000001, 0x60000001, 0x60010000] : List Word).map decode =
      List.replicate 11 (.error .illegalCommand) := by decide
/-- The table's own numbering of a word. -/
theorem test_decode_table_word : decodeTableWord 32 0x30020148 = some (.rotFwd 2 .one 0x48) ∧
    decodeTableWord 32 0x80000000 = none := by decide

/-! ### One command at a time -/

/-- V-P1 and V-P5: a paired and an unpaired letter. -/
theorem test_pb_swap : result 0x10000141 (stateA 0 0 0) = gives 0x5A [0, 0, 0] ∧
    result 0x10000143 (stateA 0 0 0) = gives 0x43 [0, 0, 0] := by decide +kernel
/-- V-P8 and V-P9: no case folding; two characters. -/
theorem test_pb_swap_invalid : result 0x10000161 (stateA 0 0 0) = gives 0x10000000 [0, 0, 0] ∧
    result 0x10000241 (stateA 0 0 0) = gives 0x10000000 [0, 0, 0] := by decide +kernel
/-- V-F5 and V-F7. -/
theorem test_rf_swap : result 0x2000014D (stateA 0 0 0) = gives 0x4E [0, 0, 0] ∧
    result 0x20000000 (stateA 0 0 0) = gives 0x10000000 [0, 0, 0] := by decide +kernel
/-- V-T2, the sum wraps, and V-T10. -/
theorem test_rot_fwd : result 0x3000015A (stateA 25 0 0) = gives 0x5A [25, 0, 0] ∧
    result 0x30020143 (stateA 0 0 7) = gives 0x42 [0, 0, 7] := by decide +kernel
/-- V-D12 and V-D14: the rotor index is checked, and before the symbol. -/
theorem test_rot_fwd_index : result 0x30030141 (stateA 0 0 0) = gives 0x30000000 [0, 0, 0] ∧
    result 0x30090161 (stateA 0 0 0) = gives 0x30000000 [0, 0, 0] := by decide +kernel
/-- V-B1, the difference wraps, and V-T10 backward. -/
theorem test_rot_bwd : result 0x40000142 (stateA 25 0 0) = gives 0x42 [25, 0, 0] ∧
    result 0x40020142 (stateA 0 0 7) = gives 0x43 [0, 0, 7] := by decide +kernel
/-- V-S1 and V-S4: a carry, which goes into no other rotor. -/
theorem test_rot_step : result 0x50000000 (stateA 25 0 0) = gives 0x100 [0, 0, 0] ∧
    result 0x50010000 (stateA 25 25 3) = gives 0x100 [25, 0, 3] := by decide +kernel
/-- V-S2 and V-D13. -/
theorem test_rot_step_no_carry : result 0x50000000 (stateA 24 0 0) = gives 0 [25, 0, 0] ∧
    result 0x50FF0000 (stateA 0 0 0) = gives 0x30000000 [0, 0, 0] := by decide +kernel
/-- V-E1 (the source's own example) and V-E4. -/
theorem test_eng_step : result 0x60000000 (stateA 25 25 3) = gives 0 [0, 0, 4] ∧
    result 0x60000000 (stateA 24 25 25) = gives 0 [25, 25, 25] := by decide +kernel
/-- V-E2: the carry out of the last rotor is dropped. -/
theorem test_eng_step_wraps : result 0x60000000 (stateA 25 25 25) = gives 0 [0, 0, 0] := by decide +kernel
/-- V-X1 and V-X5. -/
theorem test_process : result 0x70000141 (stateA 0 0 0) = gives 0x49 [1, 0, 0] ∧
    result 0x7000015A (stateA 25 25 25) = gives 0x4A [0, 0, 0] := by decide +kernel
/-- V-D17, V-D18, V-D19: a letter's neighbours and a lowercase letter step nothing. -/
theorem test_process_invalid : ([0x70000161, 0x70000140, 0x7000015B] : List Word).map (result · (stateA 0 0 0)) =
    List.replicate 3 (gives 0x10000000 [0, 0, 0]) := by decide +kernel
/-- V-D20, V-D21, V-D22: an unconfigured block. -/
theorem test_unconfigured :
    (nextOf (execute 0x70000141 State.reset)).map State.answer = some (some (.resultPort 0x40000000)) ∧
    (nextOf (execute 0x80000000 State.reset)).map State.answer = some (some (.resultPort 0x30000000)) ∧
    (nextOf (execute 0x50090000 State.reset)).map State.answer = some (some (.resultPort 0x40000000)) := by decide

/-! ### Reset, power-on and the host's queue -/

/-- V-R1 and V-R13. -/
theorem test_reset_loads : (applyReset (cfgA [0, 0, 0]) State.reset).cfgst = .ready (storeA 0 0 0) ∧
    (applyReset (cfgA [24, 25, 0]) State.reset).offsets? = some [24, 25, 0] := by decide +kernel
/-- V-R2 to V-R7, V-R10 to V-R12. -/
theorem test_reset_rejects : ∀ c ∈ [{ cfgA [0, 0, 0] with nrot := 0, table := [], shift := [] },
      { cfgA [0, 0, 0] with table := [(entries tableA0).take 25 ++ [1], entries tableA1, entries tableA2] },
      cfgA [26, 0, 0], cfgA [-1, 0, 0], { cfgA [0, 0, 0] with plug := [(0, 1), (1, 2)] },
      { cfgA [0, 0, 0] with plug := [(2, 2)] }, cfgBad,
      { cfgA [0, 0, 0] with refl := pairsA.take 12 ++ [(24, 26)] }, cfgA [0, 0]],
    applyReset c (stateA 1 2 3) = { cfgst := .unconfigured, hostQueue := [], answer := some (.resetPort 0x20000000) } := by
  decide +kernel
/-- V-R8 and V-R9: no plugboard pair, and all 13. -/
theorem test_reset_plug_counts : mapOf [] = tableOf id ∧ mapOf pairsA = reflA := by decide +kernel
/-- V-R14: a build that fails leaves the block as it was. -/
theorem test_seed_build_fails :
    bootFromSeeds (fun _ i => i) { rotors := [{ seed := 1 }], reflectorSeed := 2, plugSeed := 3, pairCount := 14 }
      (stateA 1 2 3) = stateA 1 2 3 := by decide +kernel
/-- R189, R220 and R30: power-on, unserialised use, and a word presented next. -/
theorem test_accesses :
    nextOf (step { stateA 1 2 3 with hostQueue := [.powerOn] }) = some State.reset ∧
    step { stateA 1 2 3 with hostQueue := [.unserialised] } = .refused .unserialisedUse ∧
    nextOf (step (State.reset.withFetchWord 32 0x70000141)) =
      some { State.reset with answer := some (.resultPort 0x40000000) } := ⟨by decide +kernel, rfl, by decide +kernel⟩

/-! ### Witnesses: states and operands that meet each obligation's hypotheses, clause by clause

`stateA` is a READY block, `State.reset` an unconfigured one. -/

/-- A table with an inverse is a bijection. -/
theorem bijective_of_inverse {t u : Table} (h : ∀ i, lookup u (lookup t i) = i) (h' : ∀ y, lookup t (lookup u y) = y) :
    t.Bijective :=
  ⟨fun i j e => by rw [← h i, e, h j], fun y => ⟨_, h' y⟩⟩

theorem bijective_tableA0 : tableA0.Bijective :=
  bijective_of_inverse (u := inverseA0) (by decide +kernel) (by decide +kernel)

theorem bijective_tableA1 : tableA1.Bijective :=
  bijective_of_inverse (u := tableA1) (by decide +kernel) (by decide +kernel)

theorem bijective_tableA2 : tableA2.Bijective :=
  bijective_of_inverse (u := inverseA2) (by decide +kernel) (by decide +kernel)

/-- Every table of CFG-A is a bijection, at any offsets. -/
theorem bijective_storeA (a b c : Idx) : ∀ r ∈ (storeA a b c).rotors, r.table.Bijective := by
  intro r hr
  simp only [storeA, List.mem_cons, List.not_mem_nil, or_false] at hr
  rcases hr with rfl | rfl | rfl
  · exact bijective_tableA0
  · exact bijective_tableA1
  · exact bijective_tableA2

/-- The stores of CFG-A meet what R207 guarantees, at any offsets. -/
theorem wf_storeA (a b c : Idx) : (storeA a b c).Wf :=
  ⟨by simp [storeA, Store.nrot, Config.nrotMax], bijective_storeA a b c, show plugA.Involutive by decide +kernel,
    show reflA.Involutive by decide +kernel, show reflA.FixedPointFree by decide +kernel⟩

/-- CFG-A is valid, at shifts 0 and at shifts 24, 25 and 0; `cfgBad` is not. -/
theorem valid_cfgA : (cfgA [0, 0, 0]).Valid ∧ (cfgA [24, 25, 0]).Valid ∧ ¬ cfgBad.Valid :=
  ⟨by decide +kernel, by decide +kernel, by decide +kernel⟩

/-- EncodedCommandDecodesToItself: the rotor index at both ends of its range. -/
theorem witness_encoded_command : (Instr.rotBwd 255 .several 0xFF).wellFormed = true ∧
    (Instr.rotStep 0).wellFormed = true := by decide

/-- DecodedWordIsItsCommandsEncoding. -/
theorem witness_decoded_word : decode 0x40FF02FF = .ok (.rotBwd 255 .several 0xFF) := by decide

/-- RejectedWordsAreIllegalAndWriteNothing: a word for each cause. -/
theorem witness_rejected_words : ([0x00000000, 0x80000000, 0x18000141, 0x10008141, 0x10000300, 0x70FF0141, 0x50000100,
    0x600000FF] : List Word).map decode = List.replicate 8 (.error .illegalCommand) := by decide

/-- OpcodeTableAcceptsWhatDecodeAccepts: a row selects with RIDX = NROT - 1 and not with RIDX = NROT, and then no row does. -/
theorem witness_opcode_table : (⟨.rotFwd, 0x30000000, 0xFF00FC00⟩ : OpcodeRow) ∈ opcodeTable ∧
    (⟨.rotFwd, 0x30000000, 0xFF00FC00⟩ : OpcodeRow).selects 3 0x30020148 = true ∧
    (⟨.rotFwd, 0x30000000, 0xFF00FC00⟩ : OpcodeRow).selects 2 0x30020148 = false ∧
    decode 0x30020148 = .ok (.rotFwd 2 .one 0x48) ∧ (storeA 0 0 0).rotors.length = 3 ∧
    opcodeTable.map (·.selects 3 0x30030148) = List.replicate 7 false := by decide

/-- OnlyRawWordsAssembleToIllegalWords: a line that is no `.word`, and eight digits. -/
theorem witness_raw_words : assembleLine "ROT_STEP 255".toList = some [0x50FF0000] ∧
    "ROT_STEP 255".toList.takeWhile (· ≠ ' ') ≠ ".word".toList ∧
    "FFFFFFFf".toList.length = 8 ∧ digitsValue 16 hexDigit "FFFFFFFf".toList 0 = some 0xFFFFFFFF := by decide

/-- MessageLineIsOneProcessPerCharacter. -/
theorem witness_message_line : "DECRYPT".toList ∈ ["PROCESS_MANY".toList, "ENCRYPT".toList, "DECRYPT".toList] := by
  decide

/-- The error clauses of the symbol commands of class S (opcodes 1, 2 and 7): words with each bad field, an unconfigured
block, and operands that are not one letter, at the letters' two neighbours. -/
theorem witness_symbol_command_errors :
    ((opField 0x11000141).toNat = 1 ∧ rsv1Field 0x11000141 ≠ 0) ∧ ((opField 0x20000541).toNat = 2 ∧ rsv2Field 0x20000541 ≠ 0) ∧
    ((opField 0x7000037A).toNat = 7 ∧ cntField 0x7000037A = 3) ∧ ((opField 0x70010141).toNat = 7 ∧ ridxField 0x70010141 ≠ 0) ∧
    State.reset.cfgst = .unconfigured ∧ (stateA 25 0 7).cfgst = .ready (storeA 25 0 7) ∧
    NotOneLetter .zero 0x41 ∧ NotOneLetter .several 0x5A ∧ NotOneLetter .one 0x40 ∧ NotOneLetter .one 0x5B :=
  ⟨by decide, by decide, by decide, by decide, rfl, rfl, .inl (by decide), .inl (by decide), .inr (.inl (by decide)),
    .inr (.inr (by decide))⟩

/-- The error clauses of the symbol commands of class RS (opcodes 3 and 4): words with each bad field, and the rotor index
on either side of NROT. -/
theorem witness_rotor_symbol_command_errors :
    ((opField 0x31000141).toNat = 3 ∧ rsv1Field 0x31000141 ≠ 0) ∧ ((opField 0x40000541).toNat = 4 ∧ rsv2Field 0x40000541 ≠ 0) ∧
    ((opField 0x30000300).toNat = 3 ∧ cntField 0x30000300 = 3) ∧ (255 < 256) ∧
    (storeA 25 0 7).rotors.length ≤ 3 ∧ 2 < (storeA 25 0 7).rotors.length := by decide

/-- PbSwapReturnsPlugboardPartner and RfSwapReturnsReflectorPartner: the last letter on a READY block (their error clauses:
witness_symbol_command_errors). -/
theorem witness_swaps : (stateA 0 0 0).cfgst = .ready (storeA 0 0 0) ∧ letter 25 = 0x5A ∧ letter 0 = 0x41 :=
  ⟨rfl, by decide, by decide⟩

/-- RotFwdReadsTableAtIndexPlusOffset: the largest index and offset, whose sum wraps (V-T2). -/
theorem witness_rot_fwd : (stateA 25 0 7).cfgst = .ready (storeA 25 0 7) ∧
    (storeA 25 0 7).rotors[0]? = some ⟨tableA0, 25⟩ ∧ (24 : Idx).val = ((25 : Idx).val + (25 : Idx).val) % 26 :=
  ⟨rfl, rfl, rfl⟩

/-- RotBwdReturnsInversePositionMinusOffset: V-B5, where the difference is negative. -/
theorem witness_rot_bwd : (stateA 0 0 25).cfgst = .ready (storeA 0 0 25) ∧
    (storeA 0 0 25).rotors[2]? = some ⟨tableA2, 25⟩ ∧ tableA2.Bijective ∧ lookup tableA2 1 = 3 ∧
    ((2 : Idx).val : Int) = (((1 : Idx).val : Int) - (25 : Idx).val) % 26 :=
  ⟨rfl, rfl, bijective_tableA2, by decide, by decide⟩

/-- RotStepAdvancesOneOffsetAndReportsCarry: words with each bad field, the index on either side of NROT, and the offsets 25
and 24 with the offsets they step to. -/
theorem witness_rot_step :
    ((opField 0x51000000).toNat = 5 ∧ rsv1Field 0x51000000 ≠ 0) ∧ ((opField 0x50000400).toNat = 5 ∧ rsv2Field 0x50000400 ≠ 0) ∧
    ((opField 0x50000100).toNat = 5 ∧ cntField 0x50000100 ≠ 0) ∧ ((opField 0x50000001).toNat = 5 ∧ charField 0x50000001 ≠ 0) ∧
    State.reset.cfgst = .unconfigured ∧ (storeA 25 24 0).rotors.length ≤ 3 ∧
    (storeA 25 24 0).rotors[0]? = some ⟨tableA0, 25⟩ ∧ (storeA 25 24 0).rotors[1]? = some ⟨tableA1, 24⟩ ∧
    (((25 : Idx).val = 25 → (0 : Idx).val = 0) ∧ ((25 : Idx).val ≠ 25 → (0 : Idx).val = (25 : Idx).val + 1)) ∧
    (((24 : Idx).val = 25 → (25 : Idx).val = 0) ∧ ((24 : Idx).val ≠ 25 → (25 : Idx).val = (24 : Idx).val + 1)) :=
  ⟨by decide, by decide, by decide, by decide, rfl, by decide, rfl, rfl, by decide, by decide⟩

/-- EngStepRipplesTheOffsets: a word that is not ENG_STEP's, an unconfigured and a READY block. -/
theorem witness_eng_step : ((opField 0x60000001).toNat = 6 ∧ (0x60000001 : Word) ≠ 0x60000000) ∧
    State.reset.cfgst = .unconfigured ∧ (stateA 25 25 3).cfgst = .ready (storeA 25 25 3) := ⟨by decide, rfl, rfl⟩

/-- `Rippled` at V-E1 and V-E2 says what the vectors say: it holds of their offsets. -/
theorem witness_rippled : Rippled (storeA 25 25 3).rotors (storeA 0 0 4).rotors ∧
    Rippled (storeA 25 25 25).rotors (storeA 0 0 0).rotors := by
  refine ⟨⟨rfl, ?_⟩, ⟨rfl, ?_⟩⟩
  all_goals
    intro k r hr
    match k, hr with
    | 0, hr => cases hr; exact ⟨_, rfl, rfl, fun _ => rfl, fun ⟨j, _, hj, _⟩ => absurd hj (Nat.not_lt_zero j)⟩
    | 1, hr =>
      cases hr
      refine ⟨_, rfl, rfl, fun _ => rfl, fun ⟨j, q, hj, hq, hn⟩ => ?_⟩
      obtain rfl : j = 0 := by omega
      cases hq; exact absurd rfl hn
    | 2, hr =>
      cases hr
      refine ⟨_, rfl, rfl, fun _ => rfl, fun ⟨j, q, hj, hq, hn⟩ => ?_⟩
      obtain rfl | rfl : j = 0 ∨ j = 1 := by omega
      all_goals cases hq; exact absurd rfl hn
    | k + 3, hr => cases hr

/-- ProcessEnciphersThenRipplesTheOffsets: a READY block whose tables are bijections. -/
theorem witness_process : (stateA 25 25 25).cfgst = .ready (storeA 25 25 25) ∧
    ∀ r ∈ (storeA 25 25 25).rotors, r.table.Bijective := ⟨rfl, bijective_storeA 25 25 25⟩

/-- CommandsLeaveConfigurationUnchanged: a command on an unconfigured and on a READY block. -/
theorem witness_commands : State.reset.cfgst = .unconfigured ∧
    execute 0x60000000 State.reset = .next { State.reset with answer := answered 4 0 0 } ∧
    (stateA 25 25 3).cfgst = .ready (storeA 25 25 3) ∧
    execute 0x60000000 (stateA 25 25 3) = .next { stateA 0 0 4 with answer := answered 0 0 0 } :=
  ⟨rfl, eq_next_of_nextOf (by decide +kernel), rfl, eq_next_of_nextOf (by decide +kernel)⟩

/-- SubstitutionCommandsWriteNoState: one of the four commands. -/
theorem witness_substitution : (Instr.rotBwd 2 .one 0x5A).mnemonic ∈ [.pbSwap, .rfSwap, .rotFwd, .rotBwd] := by decide

/-- FailedCommandsWriteNoState: a command and a reset that fail. -/
theorem witness_failures :
    execute 0x7000015B (stateA 0 0 0) = .next { stateA 0 0 0 with answer := some (.resultPort 0x10000000) } ∧
    statusField 0x10000000 ≠ 0 ∧ (applyReset cfgBad (stateA 0 0 0)).answer = resetAnswered 2 :=
  ⟨eq_next_of_nextOf (by decide +kernel), by decide, by decide +kernel⟩

/-- FirstCauseInPriorityOrderIsReported and CommandsWithoutACauseOfErrorSucceed: each cause, with causes after it present
too; then operands with no cause, for a command that takes a symbol and for one that takes none. -/
theorem witness_priority :
    decode 0x7000037A = .error .illegalCommand ∧
    (decode 0x50090000 = .ok (.rotStep 9) ∧ State.reset.cfgst = .unconfigured) ∧
    (decode 0x30030161 = .ok (.rotFwd 3 .one 0x61) ∧ (Instr.rotFwd 3 .one 0x61).rotorIndex = some 3 ∧
      (storeA 0 0 0).rotors.length ≤ 3) ∧
    (decode 0x30020161 = .ok (.rotFwd 2 .one 0x61) ∧ 2 < (storeA 0 0 0).rotors.length ∧
      (Instr.rotFwd 2 .one 0x61).mnemonic.operandClass.usesSymbol = true ∧ NotOneLetter .one 0x61) ∧
    ((Instr.rotFwd 2 .one 0x5A).mnemonic.operandClass.usesSymbol = true ∧ ¬ NotOneLetter .one 0x5A) ∧
    (Instr.rotStep 2).mnemonic.operandClass.usesSymbol = false :=
  ⟨by decide, ⟨by decide, rfl⟩, by decide, ⟨by decide, by decide, rfl, .inr (.inr (by decide))⟩,
    ⟨rfl, by simp [NotOneLetter]⟩, rfl⟩

/-- ResultWordDrivesOnlyItsFields: words under each hypothesis on the opcode, one that fails and one that succeeds. -/
theorem witness_result_word : (opField 0x7000015A).toNat ≠ 5 ∧ (opField 0x50000000).toNat ∈ [5, 6] ∧
    (opField 0x7000015A).toNat ∈ [1, 2, 3, 4, 7] ∧ statusField 0x10000000 ≠ 0 ∧ statusField 0x0000004A = 0 := by decide

/-- CharIsUnusedUnlessOneCharacter. -/
theorem witness_char_unused : Count.zero ≠ .one ∧ Count.several ≠ .one := by decide

/-- StepRunsTheDecodedCommand. -/
theorem witness_step : ({ stateA 0 0 0 with hostQueue := [.command 0x70000141, .powerOn] } : State).hostQueue =
    .command 0x70000141 :: [.powerOn] ∧ decode 0x70000141 = .ok (.process .one 0x41) := ⟨rfl, by decide⟩

/-- PresentedWordIsPerformedNext: the largest word, which is rejected, and a command's. -/
theorem witness_presented : 0xFFFFFFFF % 2 ^ 32 < 2 ^ 32 ∧
    decode (BitVec.ofNat 32 (0xFFFFFFFF % 2 ^ 32)) = .error .illegalCommand ∧
    decode (BitVec.ofNat 32 (0x5A00000060000000 % 2 ^ 32)) = .ok .engStep := by decide

/-- IdleStepChangesNothing. -/
theorem witness_idle : (stateA 0 0 0).hostQueue = [] := rfl

/-- PowerOnLeavesTheBlockUnconfigured. -/
theorem witness_power_on : ({ stateA 1 2 3 with hostQueue := [.powerOn] } : State).hostQueue = .powerOn :: [] := rfl

/-- UnconfiguredBlockAnswersNotConfigured. -/
theorem witness_unconfigured : State.reset.cfgst = .unconfigured := rfl

/-- `ChecksPass` holds of CFG-A with offsets at 24, 25 and 0, 13 plugboard pairs and 13 reflector pairs. -/
theorem checksPass_cfgA : ChecksPass { cfgA [24, 25, 0] with plug := pairsA } := by
  have hidx : ∀ t ∈ (cfgA [24, 25, 0]).table, t.length = 26 ∧ (∀ x ∈ t, 0 ≤ x ∧ x ≤ 25) ∧ t.Nodup := by decide +kernel
  have hpairs : PairsOk pairsA := by
    refine ⟨by decide, fun i j p q hij hp hq => ?_⟩
    have hget : ∀ (n : Nat) (p : Int × Int), pairsA[n]? = some p → p = (2 * (n : Int), 2 * (n : Int) + 1) := by
      intro n p h
      have hn : n < 13 := (List.getElem?_eq_some_iff.1 h).1
      have hall : ∀ m : Fin 13, pairsA[m.val]? = some (2 * (m.val : Int), 2 * (m.val : Int) + 1) := by decide
      rw [hall ⟨n, hn⟩] at h; exact (Option.some.inj h).symm
    rw [hget i p hp, hget j q hq]
    refine ⟨?_, ?_, ?_, ?_⟩ <;> simp only [ne_eq] <;> omega
  refine ⟨by decide, fun t ht => ⟨(hidx t ht).1, (hidx t ht).2.1, fun i j x y hij hx hy e => ?_⟩, by decide,
    ⟨by decide, hpairs⟩, by decide, hpairs⟩
  subst e
  have hnd := (hidx t ht).2.2
  obtain ⟨hi, rfl⟩ := List.getElem?_eq_some_iff.1 hx
  obtain ⟨hj, he⟩ := List.getElem?_eq_some_iff.1 hy
  exact absurd ((List.Nodup.getElem_inj_iff hnd).1 he) (by omega)

/-- ResetAcceptsExactlyTheValidRecords, ValidResetLoadsTheRecord and ResetForgetsTheStateBefore: a record that passes every
check, two that fail one (no rotor; 257 of them), and two blocks it is presented to next. -/
theorem witness_reset :
    ({ stateA 1 2 3 with hostQueue := [.reset (cfgA [0, 0, 0])] } : State).hostQueue = .reset (cfgA [0, 0, 0]) :: [] ∧
    ({ State.reset with hostQueue := [.reset (cfgA [0, 0, 0])] } : State).hostQueue = .reset (cfgA [0, 0, 0]) :: [] ∧
    ChecksPass { cfgA [24, 25, 0] with plug := pairsA } ∧
    ¬ ChecksPass { cfgA [0, 0, 0] with nrot := 0, table := [], shift := [] } ∧
    ¬ ChecksPass { cfgA [0, 0, 0] with nrot := 257 } ∧ ¬ ChecksPass cfgBad :=
  ⟨rfl, rfl, checksPass_cfgA, fun h => absurd h.1.1 (by decide), fun h => absurd h.1.2.1 (by decide),
    fun h => absurd h.2.2.2.2.1 (by decide)⟩

/-- ValidResetLoadsTheRecord: the last rotor's table and shift, and an entry of it. -/
theorem witness_reset_loads : (cfgA [24, 25, 0]).table[2]? = some (entries tableA2) ∧ (cfgA [24, 25, 0]).shift[2]? = some 0 ∧
    (entries tableA2)[(25 : Idx).val]? = some 23 := by decide +kernel

/-- PairMapDependsOnThePairsAlone: two lists of the same pairs, in another order and turned round. -/
theorem witness_pair_map : PairsOk [(0, 25), (1, 24)] ∧ PairsOk [(24, 1), (0, 25)] ∧
    ∀ p : Int × Int, p ∈ [((24 : Int), (1 : Int)), (0, 25)] ∨ p.swap ∈ [((24 : Int), (1 : Int)), (0, 25)] ↔
      p ∈ [((0 : Int), (25 : Int)), (1, 24)] ∨ p.swap ∈ [((0 : Int), (25 : Int)), (1, 24)] := by
  have two : ∀ a b : Int × Int, (∀ p ∈ [a, b], 0 ≤ p.1 ∧ p.1 ≤ 25 ∧ 0 ≤ p.2 ∧ p.2 ≤ 25 ∧ p.1 ≠ p.2) →
      (a.1 ≠ b.1 ∧ a.1 ≠ b.2 ∧ a.2 ≠ b.1 ∧ a.2 ≠ b.2) → PairsOk [a, b] := by
    refine fun a b h hab => ⟨h, fun i j p q hij hp hq => ?_⟩
    match i, j, hp, hq with
    | 0, 1, hp, hq => cases hp; cases hq; exact hab
    | 0, 0, _, _ => omega
    | 1, 0, _, _ => omega
    | 1, 1, _, _ => omega
    | _ + 2, _, hp, _ => cases hp
    | _, _ + 2, _, hq => cases hq
  refine ⟨two _ _ (by decide) (by decide), two _ _ (by decide) (by decide), fun ⟨a, b⟩ => ?_⟩
  simp only [Prod.swap, List.mem_cons, Prod.mk.injEq, List.not_mem_nil, or_false]
  omega

/-- ValidResetEstablishesTheStoreInvariants. -/
theorem witness_valid_record : (cfgA [24, 25, 0]).Valid := valid_cfgA.2.1

/-- EveryStepKeepsTheInvariant: READY, with the odometer about to wrap. -/
theorem witness_invariant_step : ({ stateA 25 25 25 with hostQueue := [.command 0x60000000] } : State).Inv ∧
    step { stateA 25 25 25 with hostQueue := [.command 0x60000000] } =
      .next { stateA 0 0 0 with answer := answered 0 0 0 } :=
  ⟨wf_storeA 25 25 25, eq_next_of_nextOf (by decide +kernel)⟩

/-- SeedBuildGroupsTheGeneratedPermutation: pair counts on either side of both bounds; the last pair of each list. -/
theorem witness_seed_build : ((-1 : Int) < 0 ∧ (13 : Int) < 14) ∧ ((0 : Int) ≤ 13 ∧ (13 : Int) ≤ 13) ∧
    ([{ seed := 1334, shift := 20 }] : List RotorSeed)[0]? = some { seed := 1334, shift := 20 } ∧
    ((12 : Nat) < 13 ∧ (24 : Idx).val = 2 * 12 ∧ (25 : Idx).val = 2 * 12 + 1) := by decide

/-- SeedBuildFromBijectionsIsValid: a generator that gives a bijection for every seed, one rotor, shift 25, 13 pairs. -/
theorem witness_seed_build_valid : (∀ seed : Int, Function.Injective ((fun _ i => i : Int → Idx → Idx) seed)) ∧
    (1 ≤ ([{ seed := 1334, shift := 25 }] : List RotorSeed).length ∧
      ([{ seed := 1334, shift := 25 }] : List RotorSeed).length ≤ 256) ∧
    (∀ r ∈ ([{ seed := 1334, shift := 25 }] : List RotorSeed), 0 ≤ r.shift ∧ r.shift ≤ 25) ∧
    ((0 : Int) ≤ 13 ∧ (13 : Int) ≤ 13) := ⟨fun _ _ _ h => h, by decide, by decide, by decide⟩

/-- InverseLookupInvertsTheTable. -/
theorem witness_inverse_lookup : tableA2.Bijective := bijective_tableA2

/-- PbSwapIsAnInvolution, RfSwapIsAnInvolutionWithoutFixedPoint and ProcessIsReciprocalWithoutFixedPoint: a READY block that
meets R207; with the last rotor, RotorSubstitutionsAreMutuallyInverse. -/
theorem witness_laws : (stateA 25 25 25).cfgst = .ready (storeA 25 25 25) ∧ (storeA 25 25 25).Wf ∧
    2 < (storeA 25 25 25).rotors.length := ⟨rfl, wf_storeA 25 25 25, by decide⟩

/-- EngStepCountsModuloTwentySixToTheRotors: two ENG_STEP commands presented, and one more access after them, with the
odometer at its largest value. -/
theorem witness_odometer :
    ({ stateA 25 25 25 with
        hostQueue := [.command 0x60000000, .command 0x60000000, .powerOn] } : State).cfgst = .ready (storeA 25 25 25) ∧
    ({ stateA 25 25 25 with
        hostQueue := [.command 0x60000000, .command 0x60000000, .powerOn] } : State).hostQueue =
      List.replicate 2 (.command 0x60000000) ++ [.powerOn] ∧
    odometer (storeA 25 25 25).rotors = 17575 := ⟨rfl, rfl, by decide⟩

/-- RotStepReplacesOneOdometerDigit: the last digit, at 25. -/
theorem witness_digit : (stateA 0 0 25).cfgst = .ready (storeA 0 0 25) ∧
    (storeA 0 0 25).rotors[2]? = some ⟨tableA2, 25⟩ := ⟨rfl, rfl⟩

/-- TwentySixStepsReturnARotorWithOneCarry: offsets on either side of the carry. -/
theorem witness_rotor_offsets : (⟨tableA0, 25⟩ : Rotor).ofs.val = 25 ∧ (⟨tableA0, 24⟩ : Rotor).ofs.val ≠ 25 := by decide

/-- MessageStopsAtTheFirstFailingCharacter: a first character that processes (V-M2's `H`, 0x51 being `Q`); one whose PROCESS
fails, on a READY and on an unconfigured block; and one that is no letter. -/
theorem witness_message :
    execute (BitVec.ofNat 32 (7 * 2 ^ 28 + 1 * 2 ^ 8 + (0x48 : Byte).toNat)) (stateA 0 0 0) =
      .next { stateA 1 0 0 with answer := some (.resultPort 0x51) } ∧ statusField 0x51 = 0 ∧
    processMany [] { stateA 1 0 0 with answer := some (.resultPort 0x51) } =
      .next { out := [], status := 0, state := { stateA 1 0 0 with answer := some (.resultPort 0x51) } } ∧
    (execute (BitVec.ofNat 32 (7 * 2 ^ 28 + 1 * 2 ^ 8 + (0x5B : Byte).toNat)) (stateA 0 0 0) =
      .next { stateA 0 0 0 with answer := some (.resultPort 0x10000000) } ∧ statusField 0x10000000 ≠ 0) ∧
    (execute (BitVec.ofNat 32 (7 * 2 ^ 28 + 1 * 2 ^ 8 + (0x48 : Byte).toNat)) State.reset =
      .next { State.reset with answer := some (.resultPort 0x40000000) } ∧ statusField 0x40000000 ≠ 0) ∧
    State.reset.cfgst = .unconfigured ∧ (stateA 2 0 0).cfgst = .ready (storeA 2 0 0) ∧ NotOneLetter .one 0x6C :=
  ⟨eq_next_of_nextOf (by decide +kernel), by decide, rfl, ⟨eq_next_of_nextOf (by decide +kernel), by decide⟩,
    ⟨eq_next_of_nextOf (by decide +kernel), by decide⟩, rfl, rfl, .inr (.inr (by decide))⟩

/-- MessageAdvancesTheOdometerByItsLength: a READY block and a text; and a reset after which a message completes. -/
theorem witness_message_state : (stateA 25 25 25).cfgst = .ready (storeA 25 25 25) ∧ ([25] : List Idx)[0]? = some 25 ∧
    processMany [] (applyReset cfgBad State.reset) = .next { out := [], status := 0, state := applyReset cfgBad State.reset } :=
  ⟨rfl, rfl, rfl⟩

/-- SecondBlockDeciphersTheFirst: a valid record, and a letter of a text. -/
theorem witness_reciprocity : (cfgA [0, 0, 0]).Valid ∧ ([7] : List Idx)[0]? = some 7 := ⟨valid_cfgA.1, rfl⟩

/-- MessageIsTheRunOfItsProcessWords: a READY block with the words of a text presented, and one more access after them. -/
theorem witness_message_run :
    ({ stateA 0 0 0 with
        hostQueue := [.command (processWord (letter 7)), .powerOn] } : State).cfgst = .ready (storeA 0 0 0) ∧
    ({ stateA 0 0 0 with hostQueue := [.command (processWord (letter 7)), .powerOn] } : State).hostQueue =
      (([7] : List Idx).map fun x => .command (processWord (letter x))) ++ [.powerOn] := ⟨rfl, rfl⟩

end Sys2Proof.Tests
end

section
/-! The state and its frames (10_state.md): what a command can do to the stores, and what a presented access does. -/

open Sys2Proof.Claims

namespace Sys2Proof.Machine

/-! ### What the operand checks let through -/

theorem withSym_eq_ok_iff {α : Type} {cnt : Count} {char : Byte} {f : Idx → Except Err α} {x : α} :
    withSym cnt char f = .ok x ↔ ∃ i, cnt = .one ∧ char = sym i ∧ f i = .ok x := by
  constructor
  · intro h
    rcases checkSym_cases cnt char with ⟨i, rfl, rfl, -⟩ | ⟨hbad, -⟩
    · exact ⟨i, rfl, rfl, withSym_sym i f ▸ h⟩
    · rw [withSym_error f hbad] at h; cases h
  · rintro ⟨i, rfl, rfl, h⟩
    rwa [withSym_sym]

theorem withRotor_eq_ok_iff {α : Type} {k : Nat} {st : Store} {f : Rotor → Except Err α} {x : α} :
    withRotor k st f = .ok x ↔ ∃ r, st.rotors[k]? = some r ∧ f r = .ok x := by
  rcases hr : st.rotors[k]? with _ | r <;> simp [withRotor, hr]

/-! ### What a command can do -/

/-- A command that succeeds leaves the stores alone, steps one rotor, or steps the odometer (R56, R127, R141, R146). -/
theorem commandBody_cases {i : Instr} {st st' : Store} {r : Reply} (h : commandBody i st = .ok (st', r)) :
    st' = st ∨ (∃ k q, st.rotors[k]? = some q ∧ st' = st.stepRotor k q) ∨ st' = st.engineStep := by
  cases i with
  | pbSwap cnt char | rfSwap cnt char =>
    obtain ⟨_, -, -, he⟩ := withSym_eq_ok_iff.1 h
    cases he; exact .inl rfl
  | rotFwd k cnt char | rotBwd k cnt char =>
    obtain ⟨_, -, hs⟩ := withRotor_eq_ok_iff.1 h
    obtain ⟨_, -, -, he⟩ := withSym_eq_ok_iff.1 hs
    cases he; exact .inl rfl
  | rotStep k =>
    obtain ⟨q, hq, he⟩ := withRotor_eq_ok_iff.1 h
    cases he; exact .inr (.inl ⟨k, q, hq, rfl⟩)
  | engStep => cases h; exact .inr (.inr rfl)
  | process cnt char =>
    obtain ⟨_, -, -, he⟩ := withSym_eq_ok_iff.1 h
    cases he; exact .inr (.inr rfl)

/-- A command word raises an error, or decodes to a command that succeeds on a READY block (R171). -/
theorem execute_cases {cw : Word} {s t : State} (h : execute cw s = .next t) :
    (∃ e, t = s.raise e) ∨
    ∃ i st st' r, decode cw = .ok i ∧ s.cfgst = .ready st ∧ commandBody i st = .ok (st', r) ∧ t = s.complete st' r := by
  rcases hd : decode cw with e | i
  · rw [execute_of_reject hd] at h; cases h; exact .inl ⟨_, rfl⟩
  · rw [execute_of_decode hd, exec_eq_runCommand] at h
    rcases runCommand_cases h with ⟨-, ht⟩ | ⟨_, e, -, -, ht⟩ | ⟨st, st', r, hst, hb, ht⟩
    · exact .inl ⟨_, ht⟩
    · exact .inl ⟨e, ht⟩
    · exact .inr ⟨i, st, st', r, rfl, hst, hb, ht⟩

/-- The word of an error, as the statements write it (R172). -/
theorem State.raise_eq_answered (s : State) (e : Err) : s.raise e = { s with answer := answered e.code 0 0 } := by
  cases e <;> rfl

/-! ### The wiring is written by no command -/

theorem sameWiring_refl (st : Store) : SameWiring st st := ⟨rfl, rfl, rfl⟩

theorem sameWiring_stepRotor {st : Store} {k : Nat} {q : Rotor} (hq : st.rotors[k]? = some q) :
    SameWiring st (st.stepRotor k q) := by
  refine ⟨?_, rfl, rfl⟩
  have htable : (st.rotors.map Rotor.table)[k]? = some q.table := by simp [hq]
  obtain ⟨hk, hget⟩ := List.getElem?_eq_some_iff.1 htable
  rw [Store.stepRotor_rotors, List.map_set, Rotor.stepped_table, ← hget, List.set_getElem_self]

theorem sameWiring_engineStep (st : Store) : SameWiring st st.engineStep :=
  ⟨rippleStep_map_table st.rotors, rfl, rfl⟩

theorem length_eq_of_sameWiring {st st' : Store} (h : SameWiring st st') : st'.rotors.length = st.rotors.length := by
  obtain ⟨htables, -, -⟩ := h
  simpa using congrArg List.length htables

theorem commandBody_sameWiring {i : Instr} {st st' : Store} {r : Reply} (h : commandBody i st = .ok (st', r)) :
    SameWiring st st' := by
  rcases commandBody_cases h with rfl | ⟨k, q, hq, rfl⟩ | rfl
  · exact sameWiring_refl _
  · exact sameWiring_stepRotor hq
  · exact sameWiring_engineStep st

/-- Settles O16: an error writes the answer alone, and a command that succeeds leaves READY with the same wiring. -/
theorem commandsLeaveConfigurationUnchanged : Obligations.CommandsLeaveConfigurationUnchanged := by
  intro cw s t h
  rcases execute_cases h with ⟨e, rfl⟩ | ⟨i, st, st', r, -, hst, hb, rfl⟩
  · exact ⟨rfl, id, fun st hst => ⟨st, hst, sameWiring_refl st, rfl⟩⟩
  · have hw := commandBody_sameWiring hb
    refine ⟨rfl, fun hu => ?_, fun st₁ hst₁ => ?_⟩
    · rw [hu] at hst; cases hst
    · rw [hst] at hst₁; cases hst₁
      exact ⟨st', rfl, hw, length_eq_of_sameWiring hw⟩

/-! ### The previous answer is not read -/

theorem runCommand_answer (body : Store → Except Err (Store × Reply)) (s : State) (a : Option Answer) :
    runCommand body { s with answer := a } = runCommand body s := rfl

/-- Settles O22: neither the error of a rejected word nor the skeleton of a command reads the answer it replaces (R33). -/
theorem commandsDoNotReadThePreviousResult : Obligations.CommandsDoNotReadThePreviousResult := by
  intro cw s a
  rcases hd : decode cw with e | i
  · rw [execute_of_reject hd, execute_of_reject hd]; rfl
  · rw [execute_of_decode hd, execute_of_decode hd, exec_eq_runCommand, exec_eq_runCommand, runCommand_answer]

/-! ### A word presented next -/

theorem step_present (s : State) (cw : Word) : step (s.present cw) = execute cw s :=
  step_cons (State.present_hostQueue s cw)

theorem tableWord_of_lt {nbits w : Nat} (h : w % 2 ^ nbits < 2 ^ 32) :
    tableWord nbits w = some (BitVec.ofNat 32 (w % 2 ^ nbits)) := if_pos h

theorem decodeTableWord_of_decode {nbits w : Nat} {cw : Word} {i : Instr} (hw : tableWord nbits w = some cw)
    (hd : decode cw = .ok i) : decodeTableWord nbits w = some i := by
  simp [decodeTableWord, hw, hd]

theorem decodeTableWord_of_reject {nbits w : Nat} {cw : Word} {e : DecodeReject} (hw : tableWord nbits w = some cw)
    (hd : decode cw = .error e) : decodeTableWord nbits w = none := by
  simp [decodeTableWord, hw, hd]

theorem step_withFetchWord {nbits w : Nat} {cw : Word} (hw : tableWord nbits w = some cw) (s : State) :
    step (s.withFetchWord nbits w) = execute cw s := by
  simp [State.withFetchWord, hw, step_present]

/-- Settles O25: the presented word is taken off the queue again and executed, and the table's decoder reads the same word. -/
theorem presentedWordIsPerformedNext : Obligations.PresentedWordIsPerformedNext := by
  intro s nbits w hlt
  have hw := tableWord_of_lt hlt
  refine ⟨fun i hd => ⟨decodeTableWord_of_decode hw hd, ?_⟩, fun hd => ⟨decodeTableWord_of_reject hw hd, ?_⟩⟩
  · rw [step_withFetchWord hw, execute_of_decode hd]
  · rw [step_withFetchWord hw, execute_of_reject hd, State.raise_eq_answered]; rfl

/-! ### Power-on -/

@[simp] theorem applyPowerOn_cfgst (s : State) : (applyPowerOn s).cfgst = .unconfigured := rfl
@[simp] theorem applyPowerOn_hostQueue (s : State) : (applyPowerOn s).hostQueue = s.hostQueue := rfl

/-- Settles O28: the state before the first reset holds no stores, and power-on discards them (R21, R208). -/
theorem powerOnLeavesTheBlockUnconfigured : Obligations.PowerOnLeavesTheBlockUnconfigured := by
  refine ⟨State.reset_cfgst, fun s rest hq => ⟨applyPowerOn { s with hostQueue := rest }, ?_, ?_, ?_⟩⟩
  · rw [step_cons hq, performAccess_powerOn]
  · exact applyPowerOn_cfgst _
  · exact applyPowerOn_hostQueue _

/-- The invariant asks nothing of an unconfigured block (R21, R207). -/
theorem State.inv_of_unconfigured {s : State} (h : s.cfgst = .unconfigured) : s.Inv := by
  simp [State.Inv, h]

/-- Settles O36: the state before the first reset is unconfigured. -/
theorem powerOnStateMeetsTheInvariant : Obligations.PowerOnStateMeetsTheInvariant :=
  State.inv_of_unconfigured State.reset_cfgst

end Sys2Proof.Machine
end

section
/-! The stores and the order of accesses (20_memory.md): the inverse lookup, the commands that write no state, a step as the
command it performs, and a message as the run of its words. -/

open Sys2Proof.Claims

namespace Sys2Proof.Machine

/-! ### The inverse lookup of a bijection -/

theorem inverseLookup_lookup {t : Table} (h : t.Bijective) (j : Idx) : inverseLookup t (lookup t j) = j := by
  obtain ⟨hinj, -⟩ := h
  exact inverseLookup_of_unique rfl fun i => hinj i j

theorem lookup_inverseLookup {t : Table} (h : t.Bijective) (y : Idx) : lookup t (inverseLookup t y) = y := by
  obtain ⟨j, rfl⟩ := h.2 y
  rw [inverseLookup_lookup h]

/-- Settles O39: a bijection holds each index once, so the lookup is a two-sided inverse, and a map with one is bijective. -/
theorem inverseLookupInvertsTheTable : Obligations.InverseLookupInvertsTheTable := fun t h =>
  ⟨lookup_inverseLookup h, inverseLookup_lookup h,
    Function.bijective_iff_has_inverse.2 ⟨lookup t, lookup_inverseLookup h, inverseLookup_lookup h⟩⟩

/-! ### The substitution commands write the answer alone -/

theorem commandBody_store_of_substitution {i : Instr} (hi : i.mnemonic ∈ [.pbSwap, .rfSwap, .rotFwd, .rotBwd])
    {st st' : Store} {r : Reply} (h : commandBody i st = .ok (st', r)) : st' = st := by
  cases i with
  | pbSwap cnt char | rfSwap cnt char =>
    obtain ⟨_, -, -, he⟩ := withSym_eq_ok_iff.1 h
    cases he; rfl
  | rotFwd k cnt char | rotBwd k cnt char =>
    obtain ⟨_, -, hs⟩ := withRotor_eq_ok_iff.1 h
    obtain ⟨_, -, -, he⟩ := withSym_eq_ok_iff.1 hs
    cases he; rfl
  | rotStep k | engStep | process cnt char => simp [Instr.mnemonic] at hi

/-- A command whose body keeps the stores changes nothing of the state but its answer. -/
theorem runCommand_writes_answer_alone {body : Store → Except Err (Store × Reply)}
    (hbody : ∀ st st' r, body st = .ok (st', r) → st' = st) {s t : State} (h : runCommand body s = .next t) :
    ∃ a, t = { s with answer := a } := by
  rcases runCommand_cases h with ⟨-, rfl⟩ | ⟨_, _, -, -, rfl⟩ | ⟨st, st', r, hst, hb, rfl⟩
  · exact ⟨_, rfl⟩
  · exact ⟨_, rfl⟩
  · rw [hbody st st' r hb, State.complete, ← hst]
    exact ⟨_, rfl⟩

/-- Settles O17: the command writes the answer alone, and the same command again does not read it. -/
theorem substitutionCommandsWriteNoState : Obligations.SubstitutionCommandsWriteNoState := by
  intro i hi s
  simp only [exec_eq_runCommand]
  obtain ⟨t, ht⟩ := runCommand_next (commandBody i) s
  obtain ⟨a, rfl⟩ := runCommand_writes_answer_alone (fun _ _ _ => commandBody_store_of_substitution hi) ht
  exact ⟨_, ht, rfl, rfl, (runCommand_answer _ s a).trans ht⟩

/-! ### One step -/

theorem step_command {s : State} {cw : Word} {rest : List Access} (h : s.hostQueue = .command cw :: rest) :
    step s = execute cw { s with hostQueue := rest } := by
  rw [step_cons h, performAccess_command]

/-- Settles O24: the access is taken off the queue, and its word executes as the command it decodes to (R58, R171). -/
theorem stepRunsTheDecodedCommand : Obligations.StepRunsTheDecodedCommand := by
  intro s cw rest i hq hd
  rw [step_command hq, execute_of_decode hd]

/-- Settles O27: the branch of a step for an empty queue (log 4). -/
theorem idleStepChangesNothing : Obligations.IdleStepChangesNothing := fun _ => step_nil

/-! ### One PROCESS word -/

/-- A command whose rotor index fits its field is read back from its word (R77, R84). -/
theorem decode_encode_of_ridx {i : Instr} (hk : i.ridx < 256) : decode (encode i) = .ok i := by
  obtain ⟨hop, hrsv1, hridx, hrsv2, hcnt, hchar⟩ := Laws.fieldsReadBack_of_ridx hk
  exact decode_of_fields hop hrsv1 hridx hrsv2 hcnt hchar

theorem decode_processWord (c : Byte) : decode (processWord c) = .ok (.process .one c) :=
  decode_encode_of_ridx (by decide : (0 : Nat) < 256)

theorem letter_eq_sym (i : Idx) : letter i = sym i := rfl

/-- PROCESS of a letter on a READY block enciphers it and steps the odometer (R141). -/
theorem execute_processWord_letter {s : State} {st : Store} (h : s.cfgst = .ready st) (x : Idx) :
    execute (processWord (letter x)) s = .next (s.complete st.engineStep { sym := sym (pipe st x) }) := by
  rw [execute_of_decode (decode_processWord _), exec_eq_runCommand, letter_eq_sym]
  exact runCommand_ok h (withSym_sym x _)

/-- The same of a step, where the host presents that word next (R58). -/
theorem step_processWord_letter {s : State} {st : Store} {x : Idx} {rest : List Access} (h : s.cfgst = .ready st)
    (hq : s.hostQueue = .command (processWord (letter x)) :: rest) :
    step s = .next ({ s with hostQueue := rest }.complete st.engineStep { sym := sym (pipe st x) }) := by
  rw [step_command hq]
  exact execute_processWord_letter (s := { s with hostQueue := rest }) h x

/-! ### The fields of a successful result word -/

theorem Reply.word_toNat (r : Reply) : r.word.toNat = r.carry.toNat * 2 ^ 8 + r.sym.toNat := by
  have hcarry := Bool.toNat_le r.carry
  have hsym := r.sym.isLt
  simp only [Reply.word, BitVec.toNat_ofNat, Nat.shiftLeft_eq]
  omega

@[simp] theorem statusField_word (r : Reply) : statusField r.word = 0 := by
  have hcarry := Bool.toNat_le r.carry
  have hsym := r.sym.isLt
  apply BitVec.eq_of_toNat_eq
  simp only [statusField, BitVec.extractLsb'_toNat, Reply.word_toNat, Nat.shiftRight_eq_div_pow, BitVec.ofNat_eq_ofNat,
    BitVec.toNat_ofNat]
  omega

@[simp] theorem symField_word (r : Reply) : symField r.word = r.sym := by
  have hsym := r.sym.isLt
  apply BitVec.eq_of_toNat_eq
  simp only [symField, BitVec.extractLsb'_toNat, Reply.word_toNat, Nat.shiftRight_eq_div_pow]
  omega

/-! ### A message -/

theorem State.result?_of_answer {s : State} {rw : Word} (h : s.answer = some (.resultPort rw)) :
    s.result? = some rw := by
  simp [State.result?, h]

/-- A character whose PROCESS succeeds goes before what the rest of the text gives (R150). -/
theorem processMany_cons_of_ok {c : Byte} {cs : List Byte} {s t : State} {rw : Word} {m : Message}
    (he : execute (processWord c) s = .next t) (hrw : t.answer = some (.resultPort rw)) (hok : statusField rw = 0)
    (hm : processMany cs t = .next m) :
    processMany (c :: cs) s = .next { m with out := symField rw :: m.out } := by
  simp only [processMany, he, State.result?_of_answer hrw, hok, if_true, hm]

theorem processMany_cons_letter {s : State} {st : Store} (h : s.cfgst = .ready st) (x : Idx) {cs : List Byte}
    {m : Message} (hm : processMany cs (s.complete st.engineStep { sym := sym (pipe st x) }) = .next m) :
    processMany (letter x :: cs) s = .next { m with out := sym (pipe st x) :: m.out } := by
  rw [processMany_cons_of_ok (execute_processWord_letter h x) (State.complete_answer ..) (statusField_word _) hm,
    symField_word]

/-- Settles O50, by induction on the text: a PROCESS neither reads nor writes the queue, so the machine's step on the
message's first word and the host's loop reach the same state but for the words still presented. -/
theorem messageIsTheRunOfItsProcessWords : Obligations.MessageIsTheRunOfItsProcessWords := by
  intro s st text rest hst hq
  induction text generalizing s st with
  | nil =>
    obtain rfl : s.hostQueue = rest := hq
    exact ⟨_, rfl, rfl⟩
  | cons x xs ih =>
    have hstep := step_processWord_letter hst hq
    obtain ⟨m, hm, hrun⟩ := ih
      ({ s with hostQueue := _ }.complete st.engineStep { sym := sym (pipe st x) }) st.engineStep rfl rfl
    exact ⟨_, processMany_cons_letter (s := { s with hostQueue := rest }) hst x hm,
      (run_succ_of_step hstep xs.length).trans hrun⟩

end Sys2Proof.Machine
end

section
/-! The encoding (30_encoding.md): commands and the fields of their words, the words that decode, the opcode table, the
assembler, and the fields of the result word. -/

open Sys2Proof.Claims

namespace Sys2Proof

/-! ### A command and the fields of its word -/

theorem Instr.wellFormed_iff_ridx_lt {i : Instr} : i.wellFormed = true ↔ i.ridx < 256 := by
  cases hk : i.rotorIndex <;> simp [Instr.wellFormed, Instr.ridx, hk]

theorem Instr.rotorIndex_eq_some_iff {i : Instr} {k : Nat} :
    i.rotorIndex = some k ↔ i.mnemonic.operandClass.usesRotor = true ∧ i.ridx = k := by
  cases i <;> simp [Instr.rotorIndex, Instr.ridx, Instr.mnemonic, Mnemonic.operandClass, OperandClass.usesRotor]

@[simp] theorem mnemonic_assembleInstr (m : Mnemonic) (k : Nat) (cnt : Count) (char : Byte) :
    (assembleInstr m k cnt char).mnemonic = m := by
  cases m <;> rfl

theorem mustBeFieldsOk_iff {cls : OperandClass} {cw : Word} :
    mustBeFieldsOk cls cw = true ↔
      (cls.usesRotor = false → ridxField cw = 0) ∧
      (cls.usesSymbol = false → cntField cw = 0 ∧ charField cw = 0) := by
  cases hr : cls.usesRotor <;> cases hs : cls.usesSymbol <;> simp [mustBeFieldsOk, hr, hs]

/-- CNT's three codes are every value of the field but 0b11 (R74). -/
theorem exists_countOf_iff {cnt : BitVec 2} : (∃ c, countOf cnt = some c) ↔ cnt ≠ 3 := by
  rw [← Option.isSome_iff_exists]
  revert cnt
  decide

theorem ridx_assembleInstr {m : Mnemonic} {k : Nat} (hk : m.operandClass.usesRotor = false → k = 0)
    (cnt : Count) (char : Byte) : (assembleInstr m k cnt char).ridx = k := by
  cases m with
  | pbSwap | rfSwap | engStep | process => exact (hk rfl).symm
  | rotFwd | rotBwd | rotStep => rfl

theorem symbolOperand_assembleInstr {m : Mnemonic} {cnt : Count} {char : Byte}
    (h : m.operandClass.usesSymbol = false → cnt = .zero ∧ char = 0) (k : Nat) :
    (assembleInstr m k cnt char).symbolOperand = (cnt, char) := by
  cases m with
  | pbSwap | rfSwap | rotFwd | rotBwd | process => rfl
  | rotStep | engStep => obtain ⟨rfl, rfl⟩ := h rfl; rfl

theorem Count.eq_zero_of_code {c : Count} (h : c.code = 0) : c = .zero := by
  cases c with
  | zero => rfl
  | one | several => cases h

/-- A word decodes to a command exactly when its six fields are that command's (R70, R77, R84). -/
theorem decode_eq_ok_iff {cw : Word} {i : Instr} :
    decode cw = .ok i ↔
      (opField cw).toNat = i.mnemonic.opcode ∧ rsv1Field cw = 0 ∧ (ridxField cw).toNat = i.ridx ∧ rsv2Field cw = 0 ∧
      (cntField cw).toNat = i.symbolOperand.1.code ∧ charField cw = i.symbolOperand.2 := by
  constructor
  · intro h
    obtain ⟨m, c, hop, hrsv1, hrsv2, hcnt, hmust, rfl⟩ := decode_ok h
    obtain ⟨hrotor, hsymbol⟩ := mustBeFieldsOk_iff.1 hmust
    have hridx : m.operandClass.usesRotor = false → (ridxField cw).toNat = 0 := fun hu => by simp [hrotor hu]
    have hsym : m.operandClass.usesSymbol = false → c = .zero ∧ charField cw = 0 := fun hu => by
      obtain ⟨hcnt0, hchar0⟩ := hsymbol hu
      exact ⟨Count.eq_zero_of_code (by simp [← hcnt, hcnt0]), hchar0⟩
    rw [mnemonic_assembleInstr, ridx_assembleInstr hridx, symbolOperand_assembleInstr hsym]
    exact ⟨hop, hrsv1, rfl, hrsv2, hcnt, rfl⟩
  · rintro ⟨hop, hrsv1, hridx, hrsv2, hcnt, hchar⟩
    exact decode_of_fields hop hrsv1 hridx hrsv2 hcnt hchar

/-- A command's word, as a number, where its rotor index fits the field. -/
theorem encode_toNat {i : Instr} (hk : i.ridx < 256) :
    (encode i).toNat = i.mnemonic.opcode * 2 ^ 28 + i.ridx * 2 ^ 16 + i.symbolOperand.1.code * 2 ^ 8 +
      i.symbolOperand.2.toNat := by
  obtain ⟨hop, hrsv1, hridx, hrsv2, hcnt, hchar⟩ := Laws.fieldsReadBack_of_ridx hk
  simp [word_toNat (encode i), hop, hrsv1, hridx, hrsv2, hcnt, hchar]

theorem wellFormed_of_decode {cw : Word} {i : Instr} (h : decode cw = .ok i) : i.wellFormed = true := by
  obtain ⟨-, -, hridx, -, -, -⟩ := decode_eq_ok_iff.1 h
  exact Instr.wellFormed_iff_ridx_lt.2 (hridx ▸ (ridxField cw).isLt)

theorem encode_of_decode {cw : Word} {i : Instr} (h : decode cw = .ok i) : encode i = cw := by
  have hk := Instr.wellFormed_iff_ridx_lt.1 (wellFormed_of_decode h)
  obtain ⟨hop, hrsv1, hridx, hrsv2, hcnt, hchar⟩ := decode_eq_ok_iff.1 h
  apply BitVec.eq_of_toNat_eq
  simp [encode_toNat hk, word_toNat cw, hop, hrsv1, hridx, hrsv2, hcnt, hchar]

/-- Settles O1: a well-formed command's rotor index fits its field, so every field of its word reads back. -/
theorem encodedCommandDecodesToItself : Obligations.EncodedCommandDecodesToItself := fun _ h =>
  Machine.decode_encode_of_ridx (Instr.wellFormed_iff_ridx_lt.1 h)

/-- Settles O2: the six fields of a word that decodes are its command's, and they determine the word. -/
theorem decodedWordIsItsCommandsEncoding : Obligations.DecodedWordIsItsCommandsEncoding := fun _ _ h =>
  ⟨encode_of_decode h, wellFormed_of_decode h⟩

/-! ### The words that decode -/

/-- What R77 checks of a word with the opcode of `m`. -/
def FieldsLegal (m : Mnemonic) (cw : Word) : Prop :=
  (opField cw).toNat = m.opcode ∧ rsv1Field cw = 0 ∧ rsv2Field cw = 0 ∧ cntField cw ≠ 3 ∧
    mustBeFieldsOk m.operandClass cw = true

theorem exists_decode_iff_fieldsLegal {m : Mnemonic} {cw : Word} :
    (∃ i, decode cw = .ok i ∧ i.mnemonic = m) ↔ FieldsLegal m cw := by
  constructor
  · rintro ⟨i, h, rfl⟩
    obtain ⟨m, c, hop, hrsv1, hrsv2, hcnt, hmust, rfl⟩ := decode_ok h
    rw [mnemonic_assembleInstr]
    exact ⟨hop, hrsv1, hrsv2, exists_countOf_iff.1 ⟨c, countOf_code hcnt⟩, hmust⟩
  · rintro ⟨hop, hrsv1, hrsv2, hcnt, hmust⟩
    obtain ⟨c, hc⟩ := exists_countOf_iff.2 hcnt
    exact ⟨assembleInstr m (ridxField cw).toNat c (charField cw),
      by simp [decode, mnemonicOf_opcode hop, hrsv1, hrsv2, hc, hmust], mnemonic_assembleInstr ..⟩

theorem decode_rejects_iff {cw : Word} : decode cw = .error .illegalCommand ↔ ∀ m, ¬ FieldsLegal m cw := by
  simp only [← exists_decode_iff_fieldsLegal]
  cases decode cw <;> simp

theorem mnemonicOf_eq_none_iff {op : BitVec 4} : mnemonicOf op = none ↔ op.toNat = 0 ∨ 8 ≤ op.toNat := by
  revert op; decide

/-- A word has one opcode, so the checks of that mnemonic alone decide whether it is rejected. -/
theorem decode_rejects_iff_of_opcode {m : Mnemonic} {cw : Word} (hop : (opField cw).toNat = m.opcode) :
    decode cw = .error .illegalCommand ↔
      rsv1Field cw ≠ 0 ∨ rsv2Field cw ≠ 0 ∨ cntField cw = 3 ∨ mustBeFieldsOk m.operandClass cw = false := by
  have honly : (∀ m', ¬ FieldsLegal m' cw) ↔ ¬ FieldsLegal m cw := by
    refine ⟨fun h => h m, fun h m' hm' => h ?_⟩
    obtain rfl : m = m' := Option.some.inj ((mnemonicOf_opcode hop).symm.trans (mnemonicOf_opcode hm'.1))
    exact hm'
  rw [decode_rejects_iff, honly]
  simp only [FieldsLegal, hop, true_and, not_and_or, ne_eq, not_not, Bool.not_eq_true]

/-- The reserved opcodes are those of no mnemonic; the class of each mnemonic says which fields must be 0 (R73, R79). -/
theorem decode_rejects_iff_reserved {cw : Word} :
    decode cw = .error .illegalCommand ↔
      ((opField cw).toNat = 0 ∨ 8 ≤ (opField cw).toNat ∨ rsv1Field cw ≠ 0 ∨ rsv2Field cw ≠ 0 ∨ cntField cw = 3 ∨
        ((opField cw).toNat ∈ [1, 2, 6, 7] ∧ ridxField cw ≠ 0) ∨
        ((opField cw).toNat ∈ [5, 6] ∧ (cntField cw ≠ 0 ∨ charField cw ≠ 0))) := by
  rcases hm : mnemonicOf (opField cw) with _ | m
  · have hdec : decode cw = .error .illegalCommand := by simp [decode, hm]
    simp only [hdec, true_iff]
    rcases mnemonicOf_eq_none_iff.1 hm with h | h
    · exact .inl h
    · exact .inr (.inl h)
  · have hop := mnemonicOf_eq_some hm
    rw [decode_rejects_iff_of_opcode hop, hop, ← Bool.not_eq_true, mustBeFieldsOk_iff]
    cases m <;>
      simp [Mnemonic.opcode, Mnemonic.operandClass, OperandClass.usesRotor, OperandClass.usesSymbol] <;> tauto

/-! ### The rows of the opcode table -/

/-- Two words are equal exactly when their six fields are (R70). -/
theorem word_eq_iff {a b : Word} :
    a = b ↔ opField a = opField b ∧ rsv1Field a = rsv1Field b ∧ ridxField a = ridxField b ∧
      rsv2Field a = rsv2Field b ∧ cntField a = cntField b ∧ charField a = charField b := by
  refine ⟨fun h => by simp [h], fun ⟨hop, hrsv1, hridx, hrsv2, hcnt, hchar⟩ => BitVec.eq_of_toNat_eq ?_⟩
  rw [word_toNat a, word_toNat b, hop, hrsv1, hridx, hrsv2, hcnt, hchar]

@[simp] theorem opField_and (a b : Word) : opField (a &&& b) = opField a &&& opField b := BitVec.extractLsb'_and
@[simp] theorem rsv1Field_and (a b : Word) : rsv1Field (a &&& b) = rsv1Field a &&& rsv1Field b := BitVec.extractLsb'_and
@[simp] theorem ridxField_and (a b : Word) : ridxField (a &&& b) = ridxField a &&& ridxField b := BitVec.extractLsb'_and
@[simp] theorem rsv2Field_and (a b : Word) : rsv2Field (a &&& b) = rsv2Field a &&& rsv2Field b := BitVec.extractLsb'_and
@[simp] theorem cntField_and (a b : Word) : cntField (a &&& b) = cntField a &&& cntField b := BitVec.extractLsb'_and
@[simp] theorem charField_and (a b : Word) : charField (a &&& b) = charField a &&& charField b := BitVec.extractLsb'_and

/-- The bits of a field of `n` bits that a row compares: none where the class uses the field, else all. -/
def comparedBits (n : Nat) (used : Bool) : BitVec n := if used then 0 else BitVec.allOnes n

@[simp] theorem and_comparedBits_eq_zero_iff {n : Nat} {x : BitVec n} {used : Bool} :
    x &&& comparedBits n used = 0 ↔ (used = false → x = 0) := by
  cases used <;> simp [comparedBits]

/-- A row's mask compares OP, the reserved fields and the "must be" fields of its class (R87). -/
theorem mask_fields {row : OpcodeRow} (h : row ∈ opcodeTable) :
    opField row.mask = BitVec.allOnes 4 ∧ rsv1Field row.mask = BitVec.allOnes 4 ∧
    ridxField row.mask = comparedBits 8 row.mnemonic.operandClass.usesRotor ∧ rsv2Field row.mask = BitVec.allOnes 6 ∧
    cntField row.mask = comparedBits 2 row.mnemonic.operandClass.usesSymbol ∧
    charField row.mask = comparedBits 8 row.mnemonic.operandClass.usesSymbol := by
  revert row; decide

/-- A row's pattern is its mnemonic's opcode over zeros. -/
theorem pattern_fields {row : OpcodeRow} (h : row ∈ opcodeTable) :
    opField row.pattern = BitVec.ofNat 4 row.mnemonic.opcode ∧ rsv1Field row.pattern = 0 ∧ ridxField row.pattern = 0 ∧
    rsv2Field row.pattern = 0 ∧ cntField row.pattern = 0 ∧ charField row.pattern = 0 := by
  revert row; decide

theorem eq_ofNat_opcode_iff {op : BitVec 4} {m : Mnemonic} : op = BitVec.ofNat 4 m.opcode ↔ op.toNat = m.opcode := by
  rw [← BitVec.toNat_inj, BitVec.toNat_ofNat, Nat.mod_eq_of_lt m.opcode_lt]

/-- The bits a row compares are those of the checks on OP, RSV1, RSV2 and the "must be" fields. -/
theorem matches_iff {row : OpcodeRow} (h : row ∈ opcodeTable) {cw : Word} :
    cw &&& row.mask = row.pattern ↔
      (opField cw).toNat = row.mnemonic.opcode ∧ rsv1Field cw = 0 ∧ rsv2Field cw = 0 ∧
      mustBeFieldsOk row.mnemonic.operandClass cw = true := by
  obtain ⟨hop, hrsv1, hridx, hrsv2, hcnt, hchar⟩ := mask_fields h
  obtain ⟨hop', hrsv1', hridx', hrsv2', hcnt', hchar'⟩ := pattern_fields h
  simp only [word_eq_iff, opField_and, rsv1Field_and, ridxField_and, rsv2Field_and, cntField_and, charField_and, hop,
    hrsv1, hridx, hrsv2, hcnt, hchar, hop', hrsv1', hridx', hrsv2', hcnt', hchar', and_comparedBits_eq_zero_iff,
    BitVec.and_allOnes, eq_ofNat_opcode_iff, mustBeFieldsOk_iff]
  tauto

theorem alsoIllegal_eq_false_iff {nrot : Nat} {row : OpcodeRow} {cw : Word} :
    row.alsoIllegal nrot cw = false ↔
      (row.mnemonic.operandClass.usesSymbol = true → cntField cw ≠ 3) ∧
      (row.mnemonic.operandClass.usesRotor = true → (ridxField cw).toNat < nrot) := by
  cases hs : row.mnemonic.operandClass.usesSymbol <;> cases hr : row.mnemonic.operandClass.usesRotor <;>
    simp [OpcodeRow.alsoIllegal, hs, hr]

/-- CNT is checked by a row's "also illegal" column where the class uses it, and by the mask where it does not. -/
theorem selects_iff_fieldsLegal {nrot : Nat} {row : OpcodeRow} (h : row ∈ opcodeTable) {cw : Word} :
    row.selects nrot cw = true ↔
      FieldsLegal row.mnemonic cw ∧ (row.mnemonic.operandClass.usesRotor = true → (ridxField cw).toNat < nrot) := by
  have hcnt : mustBeFieldsOk row.mnemonic.operandClass cw = true →
      ((row.mnemonic.operandClass.usesSymbol = true → cntField cw ≠ 3) ↔ cntField cw ≠ 3) := fun hmust => by
    cases hs : row.mnemonic.operandClass.usesSymbol
    · obtain ⟨-, hsymbol⟩ := mustBeFieldsOk_iff.1 hmust
      obtain ⟨hcnt0, -⟩ := hsymbol hs
      simp [hcnt0]
    · simp
  rw [OpcodeRow.selects, Bool.and_eq_true, beq_iff_eq, Bool.not_eq_true', matches_iff h, alsoIllegal_eq_false_iff,
    FieldsLegal]
  tauto

/-- A row selects the words that decode to its mnemonic with a rotor index below the rotor count (R78, R87). -/
theorem selects_iff {nrot : Nat} {row : OpcodeRow} (h : row ∈ opcodeTable) {cw : Word} :
    row.selects nrot cw = true ↔
      ∃ i, decode cw = .ok i ∧ i.mnemonic = row.mnemonic ∧ ∀ k, i.rotorIndex = some k → k < nrot := by
  have hrotor {i : Instr} (hd : decode cw = .ok i) :
      (∀ k, i.rotorIndex = some k → k < nrot) ↔
        (i.mnemonic.operandClass.usesRotor = true → (ridxField cw).toNat < nrot) := by
    obtain ⟨-, -, hridx, -, -, -⟩ := decode_eq_ok_iff.1 hd
    simp [Instr.rotorIndex_eq_some_iff, hridx]
  rw [selects_iff_fieldsLegal h, ← exists_decode_iff_fieldsLegal]
  constructor
  · rintro ⟨⟨i, hd, hm⟩, hlt⟩
    exact ⟨i, hd, hm, (hrotor hd).2 (hm ▸ hlt)⟩
  · rintro ⟨i, hd, hm, hlt⟩
    exact ⟨⟨i, hd, hm⟩, hm ▸ (hrotor hd).1 hlt⟩

theorem exists_row (m : Mnemonic) : ∃ row ∈ opcodeTable, row.mnemonic = m := by
  cases m <;> decide

theorem row_eq_of_mnemonic_eq : ∀ row ∈ opcodeTable, ∀ row' ∈ opcodeTable,
    row.mnemonic = row'.mnemonic → row = row' := by
  decide

theorem row_eq_of_opField_eq : ∀ row ∈ opcodeTable, ∀ row' ∈ opcodeTable,
    opField row.pattern = opField row'.pattern → row = row' := by
  decide

theorem exists_row_selects_iff {nrot : Nat} {cw : Word} :
    (∃ row ∈ opcodeTable, row.selects nrot cw = true) ↔
      ∃ i, decode cw = .ok i ∧ ∀ k, i.rotorIndex = some k → k < nrot := by
  constructor
  · rintro ⟨row, hrow, hsel⟩
    obtain ⟨i, hd, -, hlt⟩ := (selects_iff hrow).1 hsel
    exact ⟨i, hd, hlt⟩
  · rintro ⟨i, hd, hlt⟩
    obtain ⟨row, hrow, hm⟩ := exists_row i.mnemonic
    exact ⟨row, hrow, (selects_iff hrow).2 ⟨i, hd, hm.symm, hlt⟩⟩

theorem row_eq_of_selects {nrot : Nat} {cw : Word} {row row' : OpcodeRow} (hrow : row ∈ opcodeTable)
    (hrow' : row' ∈ opcodeTable) (hsel : row.selects nrot cw = true) (hsel' : row'.selects nrot cw = true) :
    row = row' := by
  obtain ⟨i, hd, hm, -⟩ := (selects_iff hrow).1 hsel
  obtain ⟨i', hd', hm', -⟩ := (selects_iff hrow').1 hsel'
  cases hd.symm.trans hd'
  exact row_eq_of_mnemonic_eq row hrow row' hrow' (hm.symm.trans hm')

end Sys2Proof

namespace Sys2Proof.Machine

/-! ### Illegal words -/

theorem State.raise_illegalCommand (s : State) : s.raise .illegalCommand = { s with answer := answered 3 0 0 } :=
  State.raise_eq_answered s .illegalCommand

/-- Settles O3: the reserved words are those that are legal for no mnemonic, and `execute` raises IllegalCommand on them
(R79, R172). -/
theorem rejectedWordsAreIllegalAndWriteNothing : Obligations.RejectedWordsAreIllegalAndWriteNothing := by
  refine fun cw => ⟨decode_rejects_iff_reserved, fun hd s => ?_⟩
  rw [execute_of_reject hd, State.raise_illegalCommand]

/-- A command that names a rotor the block does not have is illegal (R78). -/
theorem commandBody_of_rotorIndex {i : Instr} {k : Nat} {st : Store} (hi : i.rotorIndex = some k) (hk : st.nrot ≤ k) :
    commandBody i st = .error .illegalCommand := by
  cases i with
  | pbSwap | rfSwap | engStep | process => cases hi
  | rotFwd | rotBwd | rotStep => cases hi; exact withRotor_error hk _

/-- A word that no row selects is rejected, or names a rotor the block does not have. -/
theorem execute_of_no_row {cw : Word} {s : State} {st : Store} (hst : s.cfgst = .ready st)
    (h : ¬ ∃ i, decode cw = .ok i ∧ ∀ k, i.rotorIndex = some k → k < st.nrot) :
    execute cw s = .next (s.raise .illegalCommand) := by
  rcases hd : decode cw with e | i
  · exact execute_of_reject hd s
  · obtain ⟨k, hi, hk⟩ : ∃ k, i.rotorIndex = some k ∧ st.nrot ≤ k := by simpa [hd] using h
    rw [execute_of_decode hd, exec_eq_runCommand]
    exact runCommand_error hst (commandBody_of_rotorIndex hi hk)

/-- Settles O4: a row selects the words that decode to its mnemonic with the rotor-index check, each mnemonic has one row, and
a word without a row is rejected or fails that check. -/
theorem opcodeTableAcceptsWhatDecodeAccepts : Obligations.OpcodeTableAcceptsWhatDecodeAccepts := by
  refine fun nrot cw => ⟨exists_row_selects_iff, fun row hrow row' hrow' => row_eq_of_selects hrow hrow',
    row_eq_of_opField_eq, fun row hrow hsel => ?_, fun s st hst hn hnone => ?_⟩
  · obtain ⟨i, hd, hm, -⟩ := (selects_iff hrow).1 hsel
    exact ⟨i, hd, hm⟩
  · subst hn
    rw [execute_of_no_row hst, State.raise_illegalCommand]
    intro hsome
    obtain ⟨row, hrow, hsel⟩ := exists_row_selects_iff.2 hsome
    exact Bool.eq_false_iff.1 (hnone row hrow) hsel

/-! ### The assembler -/

theorem parseRotor_lt {cs : List Char} {k : Nat} (h : parseRotor cs = some k) : k < 256 := by
  unfold parseRotor at h
  split at h
  · cases h
  · split at h
    · cases h
    · split at h
      · cases h; assumption
      · cases h

theorem parseRotorSym_lt {cs : List Char} {p : Nat × Count × Byte} (h : parseRotorSym cs = some p) : p.1 < 256 := by
  unfold parseRotorSym at h
  split at h
  · rename_i hk _
    obtain ⟨_, -, rfl⟩ := Option.map_eq_some_iff.1 h
    exact parseRotor_lt hk
  · cases h

theorem ridx_lt_of_map_eq_some {α : Type} {o : Option α} {f : α → Instr} {i : Instr} (h : o.map f = some i)
    (hf : ∀ p, o = some p → (f p).ridx < 256) : i.ridx < 256 := by
  obtain ⟨p, hp, rfl⟩ := Option.map_eq_some_iff.1 h
  exact hf p hp

/-- A command the assembler reads has a rotor index of R84, 0 to 255: read where its class names a rotor, and else 0. -/
theorem parseCommand_ridx_lt {m ops : List Char} {i : Instr} (h : parseCommand m ops = some i) : i.ridx < 256 := by
  have hnone : 0 < 256 := by decide
  unfold parseCommand at h
  split_ifs at h
  · exact ridx_lt_of_map_eq_some h fun _ _ => hnone
  · exact ridx_lt_of_map_eq_some h fun _ _ => hnone
  · exact ridx_lt_of_map_eq_some h fun _ => parseRotorSym_lt
  · exact ridx_lt_of_map_eq_some h fun _ => parseRotorSym_lt
  · exact ridx_lt_of_map_eq_some h fun _ => parseRotor_lt
  · cases h; exact hnone
  · exact ridx_lt_of_map_eq_some h fun _ _ => hnone

theorem assembleLine_decodes {line : List Char} {ws : List Word} (h : assembleLine line = some ws)
    (hraw : line.takeWhile (· ≠ ' ') ≠ ".word".toList) : ∀ w ∈ ws, ∃ i, decode w = .ok i := by
  simp only [assembleLine, if_neg hraw] at h
  split at h
  · obtain ⟨text, -, rfl⟩ := Option.map_eq_some_iff.1 h
    simp only [List.forall_mem_map]
    exact fun c _ => ⟨_, decode_processWord (charCode c)⟩
  · obtain ⟨i, hi, rfl⟩ := Option.map_eq_some_iff.1 h
    simp only [List.forall_mem_singleton]
    exact ⟨i, decode_encode_of_ridx (parseCommand_ridx_lt hi)⟩

/-- The mnemonic of a line ends at its first space (log 12). -/
theorem takeWhile_mnemonic {name ops : List Char} (hname : ∀ c ∈ name, c ≠ ' ') :
    (name ++ ' ' :: ops).takeWhile (· ≠ ' ') = name := by
  rw [List.takeWhile_append_of_pos (by simpa using hname)]
  simp

/-- The operands of a line begin after the spaces behind its mnemonic (log 12). -/
theorem dropWhile_mnemonic {name ops : List Char} {c : Char} (hname : ∀ c ∈ name, c ≠ ' ') (hc : c ≠ ' ') :
    ((name ++ ' ' :: c :: ops).dropWhile (· ≠ ' ')).dropWhile (· = ' ') = c :: ops := by
  rw [List.dropWhile_append_of_pos (by simpa using hname)]
  simp [hc]

theorem assembleLine_rawWord {digits : List Char} {v : Nat} (hlen : digits.length = 8)
    (hv : digitsValue 16 hexDigit digits 0 = some v) :
    assembleLine (".word".toList ++ ' ' :: '0' :: 'x' :: digits) = some [BitVec.ofNat 32 v] := by
  have hname : ∀ c ∈ ".word".toList, c ≠ ' ' := by simp
  have hparse : parseHex 8 ('0' :: 'x' :: digits) = some v := by
    simp only [parseHex, if_pos hlen, hv]
  simp only [assembleLine, takeWhile_mnemonic hname, dropWhile_mnemonic hname (by decide : '0' ≠ ' '), if_true, hparse,
    Option.map_some]

theorem parseText_quoted (text : List Char) : parseText ('"' :: (text ++ ['"'])) = some text := by
  simp [parseText]

theorem assembleLine_pseudo {name : List Char} (h : name ∈ pseudoNames) (text : List Char) :
    assembleLine (name ++ ' ' :: '"' :: (text ++ ['"'])) = some (text.map fun c => processWord (charCode c)) := by
  have hname : ∀ name ∈ pseudoNames, (∀ c ∈ name, c ≠ ' ') ∧ name ≠ ".word".toList := by simp [pseudoNames]
  obtain ⟨hspace, hraw⟩ := hname name h
  have hops := dropWhile_mnemonic (c := '"') (ops := text ++ ['"']) hspace (by decide)
  simp only [assembleLine, takeWhile_mnemonic hspace, hops, if_neg hraw, if_pos h, parseText_quoted, Option.map_some]

theorem processWord_eq (c : Byte) : processWord c = BitVec.ofNat 32 (7 * 2 ^ 28 + 1 * 2 ^ 8 + c.toNat) := by
  have hsum : (7 <<< 28) + (0 <<< 16) + (1 <<< 8) + c.toNat = 7 * 2 ^ 28 + 1 * 2 ^ 8 + c.toNat := by
    simp only [Nat.shiftLeft_eq]; omega
  exact congrArg (BitVec.ofNat 32) hsum

/-- Settles O7: a line other than `.word` stands for encodings of commands whose rotor index fits its field. -/
theorem onlyRawWordsAssembleToIllegalWords : Obligations.OnlyRawWordsAssembleToIllegalWords :=
  ⟨fun _ _ => assembleLine_decodes, fun _ _ => assembleLine_rawWord⟩

/-- Settles O8: the quoted text is read back whole, and each character becomes its PROCESS word. -/
theorem messageLineIsOneProcessPerCharacter : Obligations.MessageLineIsOneProcessPerCharacter := by
  intro name hname text
  simpa only [processWord_eq, List.append_assoc, List.cons_append] using assembleLine_pseudo hname text

/-- Settles O6, by running the assembler on the four lines. -/
theorem assemblerExamplesGiveTheirWords : Obligations.AssemblerExamplesGiveTheirWords := by
  refine ⟨?_, ?_, ?_, ?_⟩ <;> decide

/-- Settles O5, by running the decoder on the nine words. -/
theorem writtenOutWordsDecodeToTheirCommands : Obligations.WrittenOutWordsDecodeToTheirCommands := by
  unfold Obligations.WrittenOutWordsDecodeToTheirCommands
  decide

/-! ### CHAR with CNT other than one -/

theorem withSym_congr_char {α : Type} {cnt : Count} (h : cnt ≠ .one) (c d : Byte) (f : Idx → Except Err α) :
    withSym cnt c f = withSym cnt d f := by
  rw [withSym_error f (.inl h), withSym_error f (.inl h)]

theorem exec_congr {i j : Instr} (h : ∀ st, commandBody i st = commandBody j st) (s : State) : exec i s = exec j s := by
  rw [exec_eq_runCommand, exec_eq_runCommand, funext h]

/-- Settles O23: with CNT other than one the symbol check fails before CHAR is read, and the command's body is the same. -/
theorem charIsUnusedUnlessOneCharacter : Obligations.CharIsUnusedUnlessOneCharacter := by
  intro cnt h k c d s
  have hsym {α : Type} (f : Idx → Except Err α) : withSym cnt c f = withSym cnt d f := withSym_congr_char h c d f
  refine ⟨exec_congr ?_ s, exec_congr ?_ s, exec_congr ?_ s, exec_congr ?_ s, exec_congr ?_ s⟩
  · exact fun st => hsym _
  · exact fun st => hsym _
  · exact fun st => congrArg (withRotor k st) (funext fun _ => hsym _)
  · exact fun st => congrArg (withRotor k st) (funext fun _ => hsym _)
  · exact fun st => hsym _

/-! ### The fields of the result word -/

@[simp] theorem zeroField_word (r : Reply) : zeroField r.word = 0 := by
  have hcarry := Bool.toNat_le r.carry
  have hsym := r.sym.isLt
  apply BitVec.eq_of_toNat_eq
  simp only [zeroField, BitVec.extractLsb'_toNat, Reply.word_toNat, Nat.shiftRight_eq_div_pow, BitVec.ofNat_eq_ofNat,
    BitVec.toNat_ofNat]
  omega

@[simp] theorem carryField_word (r : Reply) : carryField r.word = BitVec.ofBool r.carry := by
  have hsym := r.sym.isLt
  have hcarry := Bool.toNat_le r.carry
  apply BitVec.eq_of_toNat_eq
  simp only [carryField, BitVec.extractLsb'_toNat, Reply.word_toNat, Nat.shiftRight_eq_div_pow, BitVec.toNat_ofBool]
  omega

theorem fields_errWord (e : Err) : (statusField e.word).toNat = e.code ∧ zeroField e.word = 0 ∧ carryField e.word = 0 ∧
    symField e.word = 0 := by
  cases e <;> decide

theorem statusField_errWord_ne_zero (e : Err) : statusField e.word ≠ 0 := by
  cases e <;> decide

theorem withSym_error_eq {α : Type} {cnt : Count} {char : Byte} {f : Idx → Except Err α} {e : Err}
    (hf : ∀ i e', f i ≠ .error e') (h : withSym cnt char f = .error e) : e = .invalidInput := by
  rcases checkSym_cases cnt char with ⟨i, rfl, rfl, -⟩ | ⟨hbad, -⟩
  · rw [withSym_sym] at h; exact absurd h (hf i e)
  · rw [withSym_error f hbad] at h; cases h; rfl

theorem withRotor_error_cases {α : Type} {k : Nat} {st : Store} {f : Rotor → Except Err α} {e : Err}
    (h : withRotor k st f = .error e) : e = .illegalCommand ∨ ∃ r, f r = .error e := by
  rcases hr : st.rotors[k]? with _ | r <;> simp only [withRotor, hr] at h
  · cases h; exact .inl rfl
  · exact .inr ⟨r, h⟩

/-- A command's own checks report InvalidInput or IllegalCommand (R173, R175). -/
theorem commandBody_error {i : Instr} {st : Store} {e : Err} (h : commandBody i st = .error e) :
    e = .invalidInput ∨ e = .illegalCommand := by
  cases i with
  | pbSwap | rfSwap | process => exact .inl (withSym_error_eq (fun _ _ h => by cases h) h)
  | rotFwd | rotBwd =>
    rcases withRotor_error_cases h with he | ⟨_, hs⟩
    · exact .inr he
    · exact .inl (withSym_error_eq (fun _ _ h => by cases h) hs)
  | rotStep =>
    rcases withRotor_error_cases h with he | ⟨_, hs⟩
    · exact .inr he
    · cases hs
  | engStep => cases h

/-- The fields that a command drives (R82). -/
theorem commandBody_reply {i : Instr} {st st' : Store} {r : Reply} (h : commandBody i st = .ok (st', r)) :
    (i.mnemonic.operandClass.usesSymbol = true ∧ ∃ x, r = { sym := sym x }) ∨
    (i.mnemonic = .rotStep ∧ ∃ b, r = { carry := b }) ∨ (i.mnemonic = .engStep ∧ r = {}) := by
  cases i with
  | pbSwap | rfSwap | process =>
    obtain ⟨_, -, -, he⟩ := withSym_eq_ok_iff.1 h
    cases he; exact .inl ⟨rfl, _, rfl⟩
  | rotFwd | rotBwd =>
    obtain ⟨_, -, hs⟩ := withRotor_eq_ok_iff.1 h
    obtain ⟨_, -, -, he⟩ := withSym_eq_ok_iff.1 hs
    cases he; exact .inl ⟨rfl, _, rfl⟩
  | rotStep =>
    obtain ⟨_, -, he⟩ := withRotor_eq_ok_iff.1 h
    cases he; exact .inr (.inl ⟨rfl, _, rfl⟩)
  | engStep => cases h; exact .inr (.inr ⟨rfl, rfl⟩)

/-- A command word is answered with an error other than InvalidConfiguration, which is the reset port's, or with the reply
of a command that succeeds (R171). -/
theorem execute_outcome (cw : Word) (s : State) :
    (∃ e, e ≠ .invalidConfiguration ∧ execute cw s = .next (s.raise e)) ∨
    ∃ i st st' r, decode cw = .ok i ∧ commandBody i st = .ok (st', r) ∧ execute cw s = .next (s.complete st' r) := by
  rcases hd : decode cw with e | i
  · exact .inl ⟨.illegalCommand, nofun, execute_of_reject hd s⟩
  · rw [execute_of_decode hd, exec_eq_runCommand]
    rcases hst : s.cfgst with _ | st
    · exact .inl ⟨.notConfigured, nofun, runCommand_unconfigured hst _⟩
    · rcases hb : commandBody i st with e | ⟨st', r⟩
      · refine .inl ⟨e, ?_, runCommand_error hst hb⟩
        rcases commandBody_error hb with rfl | rfl <;> nofun
      · exact .inr ⟨i, st, st', r, rfl, hb, runCommand_ok hst hb⟩

theorem applyReset_answer (c : Cfg) (s : State) :
    (applyReset c s).answer = resetAnswered 0 ∨ (applyReset c s).answer = resetAnswered 2 := by
  unfold applyReset
  split
  · exact .inl rfl
  · exact .inr rfl

/-- R81 to R83 of the result word `rw` of the command word `cw`. -/
def ResultFieldsOk (cw rw : Word) : Prop :=
  zeroField rw = 0 ∧
  (statusField rw).toNat ∈ [0, 1, 3, 4] ∧
  (statusField rw ≠ 0 → carryField rw = 0 ∧ symField rw = 0) ∧
  ((opField cw).toNat ≠ 5 → carryField rw = 0) ∧
  ((opField cw).toNat ∈ [5, 6] → symField rw = 0) ∧
  (statusField rw = 0 → (opField cw).toNat ∈ [1, 2, 3, 4, 7] →
    0x41 ≤ (symField rw).toNat ∧ (symField rw).toNat ≤ 0x5A)

theorem resultFieldsOk_errWord (cw : Word) {e : Err} (he : e ≠ .invalidConfiguration) : ResultFieldsOk cw e.word := by
  obtain ⟨hstatus, hzero, hcarry, hsym⟩ := fields_errWord e
  refine ⟨hzero, ?_, fun _ => ⟨hcarry, hsym⟩, fun _ => hcarry, fun _ => hsym,
    fun h => absurd h (statusField_errWord_ne_zero e)⟩
  rw [hstatus]
  cases e with
  | invalidConfiguration => exact absurd rfl he
  | invalidInput | illegalCommand | notConfigured => decide

theorem opcode_of_usesSymbol {m : Mnemonic} (h : m.operandClass.usesSymbol = true) : m.opcode ∉ [5, 6] := by
  cases m with
  | rotStep | engStep => cases h
  | pbSwap | rfSwap | rotFwd | rotBwd | process => decide

theorem resultFieldsOk_replyWord {cw : Word} {i : Instr} {st st' : Store} {r : Reply} (hd : decode cw = .ok i)
    (hb : commandBody i st = .ok (st', r)) : ResultFieldsOk cw r.word := by
  obtain ⟨hop, -, -, -, -, -⟩ := decode_eq_ok_iff.1 hd
  refine ⟨zeroField_word r, by simp, fun h => absurd (statusField_word r) h, ?_⟩
  rw [hop, carryField_word, symField_word]
  rcases commandBody_reply hb with ⟨hm, x, rfl⟩ | ⟨hm, b, rfl⟩ | ⟨hm, rfl⟩
  · have hx : 0x41 ≤ (sym x).toNat ∧ (sym x).toNat ≤ 0x5A := by have := sym_toNat x; omega
    exact ⟨fun _ => rfl, fun h => absurd h (opcode_of_usesSymbol hm), fun _ _ => hx⟩
  · simp [hm, Mnemonic.opcode]
  · simp [hm, Mnemonic.opcode]

/-- Settles O21: the word answered is an error's, or the reply of a command that succeeds (R171), and both drive their own
fields alone. -/
theorem resultWordDrivesOnlyItsFields : Obligations.ResultWordDrivesOnlyItsFields := by
  refine ⟨fun cw s => ?_, applyReset_answer⟩
  rcases execute_outcome cw s with ⟨e, he, hx⟩ | ⟨i, st, st', r, hd, hb, hx⟩
  · exact ⟨_, _, hx, s.raise_answer e, resultFieldsOk_errWord cw he⟩
  · exact ⟨_, _, hx, s.complete_answer st' r, resultFieldsOk_replyWord hd hb⟩

end Sys2Proof.Machine
end

section
/-! The pairing commands (40_pairing.md): the checks that every command of class S shares, what a command that answers a
letter leaves, and the two swaps with their laws. -/

open Sys2Proof.Claims

namespace Sys2Proof.Machine

/-! ### The encoding and the errors of a command -/

/-- A command's word as the statements write it, multiplied out (R84). -/
theorem encode_eq_sum (i : Instr) :
    encode i = BitVec.ofNat 32 (i.mnemonic.opcode * 2 ^ 28 + i.ridx * 2 ^ 16 + i.symbolOperand.1.code * 2 ^ 8 +
      i.symbolOperand.2.toNat) := by
  simp only [encode, Nat.shiftLeft_eq]

/-- A word with a command's opcode and a bad field is answered IllegalCommand in every state (R77, R172). -/
theorem execute_of_bad_field {m : Mnemonic} {cw : Word} (hop : (opField cw).toNat = m.opcode)
    (hbad : rsv1Field cw ≠ 0 ∨ rsv2Field cw ≠ 0 ∨ cntField cw = 3 ∨ mustBeFieldsOk m.operandClass cw = false)
    (s : State) : execute cw s = .next { s with answer := answered 3 0 0 } := by
  rw [execute_of_reject ((decode_rejects_iff_of_opcode hop).2 hbad), State.raise_illegalCommand]

/-- Every command is answered NotConfigured by an unconfigured block (R176). -/
theorem exec_unconfigured {s : State} (h : s.cfgst = .unconfigured) (i : Instr) :
    exec i s = .next { s with answer := answered 4 0 0 } := by
  rw [exec_eq_runCommand, runCommand_unconfigured h, State.raise_eq_answered]
  rfl

/-- An error of a command's own checks is its answer and changes nothing else (R172). -/
theorem exec_of_commandBody_error {i : Instr} {s : State} {st : Store} {e : Err} (hst : s.cfgst = .ready st)
    (hb : commandBody i st = .error e) : exec i s = .next { s with answer := answered e.code 0 0 } := by
  rw [exec_eq_runCommand, runCommand_error hst hb, State.raise_eq_answered]

/-! ### The commands of class S -/

/-- Of the "must be" fields, class S has RIDX alone (R73). -/
theorem mustBeFieldsOk_S_eq_false_iff {cw : Word} : mustBeFieldsOk .S cw = false ↔ ridxField cw ≠ 0 := by
  simp [mustBeFieldsOk, OperandClass.usesRotor, OperandClass.usesSymbol]

theorem decode_word_of_class_S {m : Mnemonic} (hm : m.operandClass = .S) (cnt : Count) (char : Byte) :
    decode (BitVec.ofNat 32 (m.opcode * 2 ^ 28 + cnt.code * 2 ^ 8 + char.toNat)) = .ok (assembleInstr m 0 cnt char) := by
  have hridx : (assembleInstr m 0 cnt char).ridx = 0 := ridx_assembleInstr (fun _ => rfl) cnt char
  have hsym : (assembleInstr m 0 cnt char).symbolOperand = (cnt, char) :=
    symbolOperand_assembleInstr (by simp [hm, OperandClass.usesSymbol]) 0
  have hword := encode_eq_sum (assembleInstr m 0 cnt char)
  rw [mnemonic_assembleInstr, hridx, hsym, Nat.zero_mul, Nat.add_zero] at hword
  rw [← hword]
  exact decode_encode_of_ridx (by rw [hridx]; decide)

/-- The symbol check is the first of a class S command's own (R101). -/
theorem commandBody_of_notOneLetter {m : Mnemonic} (hm : m.operandClass = .S) {cnt : Count} {char : Byte}
    (h : NotOneLetter cnt char) (st : Store) : commandBody (assembleInstr m 0 cnt char) st = .error .invalidInput := by
  cases m with
  | pbSwap | rfSwap | process => exact withSym_error _ h
  | rotFwd | rotBwd | rotStep | engStep => cases hm

/-- The encoding and the errors of a command of class S follow from its class. -/
theorem symbolCommandChecks_of_class_S {m : Mnemonic} (hm : m.operandClass = .S) :
    SymbolCommandChecks m.opcode (assembleInstr m 0) := by
  refine ⟨decode_word_of_class_S hm, fun cw s hop hbad => ?_, fun s cnt char hst => exec_unconfigured hst _,
    fun s st cnt char hst hbad => ?_⟩
  · rw [← mustBeFieldsOk_S_eq_false_iff, ← hm] at hbad
    exact execute_of_bad_field hop hbad s
  · rw [exec_of_commandBody_error hst (commandBody_of_notOneLetter hm hbad st)]
    rfl

/-! ### A command that answers a letter -/

/-- The result word of a letter, as the statements write it (R80, R82). -/
theorem resultPort_letter_eq_answered (y : Idx) :
    some (.resultPort (Reply.word { sym := sym y })) = answered 0 0 (0x41 + y.val) := by
  simp [answered, Reply.word, sym_toNat]

/-- A command that keeps the stores and answers a letter changes nothing but the answer. -/
theorem exec_of_commandBody_letter {i : Instr} {s : State} {st : Store} {y : Idx} (hst : s.cfgst = .ready st)
    (hb : commandBody i st = .ok (st, { sym := sym y })) :
    exec i s = .next { s with answer := answered 0 0 (0x41 + y.val) } := by
  rw [exec_eq_runCommand, runCommand_ok hst hb, State.complete, ← hst, resultPort_letter_eq_answered]

/-! ### PB_SWAP and RF_SWAP -/

theorem exec_pbSwap_letter {s : State} {st : Store} (hst : s.cfgst = .ready st) (i : Idx) :
    exec (.pbSwap .one (letter i)) s = .next { s with answer := answered 0 0 (0x41 + (lookup st.pb i).val) } :=
  exec_of_commandBody_letter hst (withSym_sym i _)

theorem exec_rfSwap_letter {s : State} {st : Store} (hst : s.cfgst = .ready st) (i : Idx) :
    exec (.rfSwap .one (letter i)) s = .next { s with answer := answered 0 0 (0x41 + (lookup st.rf i).val) } :=
  exec_of_commandBody_letter hst (withSym_sym i _)

/-- Settles O9: PB_SWAP is of class S, and its letter is read from the plugboard map (R103). -/
theorem pbSwapReturnsPlugboardPartner : Obligations.PbSwapReturnsPlugboardPartner :=
  ⟨symbolCommandChecks_of_class_S (m := .pbSwap) rfl, fun _ _ i hst => exec_pbSwap_letter hst i⟩

/-- Settles O10: RF_SWAP is of class S, and its letter is read from the reflector map (R106). -/
theorem rfSwapReturnsReflectorPartner : Obligations.RfSwapReturnsReflectorPartner :=
  ⟨symbolCommandChecks_of_class_S (m := .rfSwap) rfl, fun _ _ i hst => exec_rfSwap_letter hst i⟩

/-- Settles O40: the first swap leaves the stores, so the second reads the same map, which is its own inverse (R25). -/
theorem pbSwapIsAnInvolution : Obligations.PbSwapIsAnInvolution := by
  intro s st x hst hwf
  obtain ⟨-, -, hpb, -, -⟩ := hwf
  refine ⟨_, lookup st.pb x, exec_pbSwap_letter hst x, rfl, ?_⟩
  have hback := exec_pbSwap_letter (s := { s with answer := _ }) hst (lookup st.pb x)
  rwa [hpb x] at hback

/-- Settles O41: the first swap leaves the stores, so the second reads the same map, which is its own inverse and has no
fixed point (R26). -/
theorem rfSwapIsAnInvolutionWithoutFixedPoint : Obligations.RfSwapIsAnInvolutionWithoutFixedPoint := by
  intro s st x hst hwf
  obtain ⟨-, -, -, hrf, hfree⟩ := hwf
  refine ⟨_, lookup st.rf x, exec_rfSwap_letter hst x, rfl, hfree x, ?_⟩
  have hback := exec_rfSwap_letter (s := { s with answer := _ }) hst (lookup st.rf x)
  rwa [hrf x] at hback

end Sys2Proof.Machine
end

section
/-! The rotor commands (41_rotor.md): the checks that every command of class RS shares, the two substitutions with their law,
and the step of one rotor. -/

open Sys2Proof.Claims

namespace Sys2Proof.Machine

/-! ### The encoding and the errors of a command that names a rotor -/

theorem rotorIndex_assembleInstr {m : Mnemonic} (hm : m.operandClass.usesRotor = true) (k : Nat) (cnt : Count)
    (char : Byte) : (assembleInstr m k cnt char).rotorIndex = some k := by
  rw [Instr.rotorIndex_eq_some_iff, mnemonic_assembleInstr, ridx_assembleInstr (by simp [hm])]
  exact ⟨hm, rfl⟩

/-- The word of a command that names a rotor, with CNT = CHAR = 0 where its class takes no symbol (R73, R84). -/
theorem decode_word_of_usesRotor {m : Mnemonic} (hm : m.operandClass.usesRotor = true) {k : Nat} (hk : k < 256)
    {cnt : Count} {char : Byte} (hsym : m.operandClass.usesSymbol = false → cnt = .zero ∧ char = 0) :
    decode (BitVec.ofNat 32 (m.opcode * 2 ^ 28 + k * 2 ^ 16 + cnt.code * 2 ^ 8 + char.toNat)) =
      .ok (assembleInstr m k cnt char) := by
  have hridx : (assembleInstr m k cnt char).ridx = k := ridx_assembleInstr (by simp [hm]) cnt char
  have hword := encode_eq_sum (assembleInstr m k cnt char)
  rw [mnemonic_assembleInstr, hridx, symbolOperand_assembleInstr hsym] at hword
  rw [← hword]
  exact decode_encode_of_ridx (by rwa [hridx])

/-- A rotor the block does not have is answered IllegalCommand, whatever the other operands (R78, R180). -/
theorem exec_of_rotorIndex {i : Instr} {k : Nat} (hi : i.rotorIndex = some k) {s : State} {st : Store}
    (hst : s.cfgst = .ready st) (hk : st.nrot ≤ k) : exec i s = .next { s with answer := answered 3 0 0 } := by
  rw [exec_of_commandBody_error hst (commandBody_of_rotorIndex hi hk)]
  rfl

/-! ### The commands of class RS -/

/-- The symbol check comes after the rotor-index check, and fails as it does for class S (R101, R180). -/
theorem commandBody_of_rotor_notOneLetter {m : Mnemonic} (hm : m.operandClass = .RS) {st : Store} {k : Nat}
    (hk : k < st.rotors.length) {cnt : Count} {char : Byte} (h : NotOneLetter cnt char) :
    commandBody (assembleInstr m k cnt char) st = .error .invalidInput := by
  have hr := List.getElem?_eq_getElem hk
  cases m with
  | rotFwd | rotBwd => exact (withRotor_some hr _).trans (withSym_error _ h)
  | pbSwap | rfSwap | rotStep | engStep | process => cases hm

/-- The encoding and the errors of a command of class RS follow from its class. -/
theorem rotorSymbolCommandChecks_of_class_RS {m : Mnemonic} (hm : m.operandClass = .RS) :
    RotorSymbolCommandChecks m.opcode (assembleInstr m) := by
  have hrotor : m.operandClass.usesRotor = true := by rw [hm]; rfl
  have hsym : m.operandClass.usesSymbol = true := by rw [hm]; rfl
  refine ⟨fun k cnt char hk => decode_word_of_usesRotor hrotor hk (by simp [hsym]), fun cw s hop hbad => ?_,
    fun s k cnt char hst => exec_unconfigured hst _,
    fun s st k cnt char hst hk => exec_of_rotorIndex (rotorIndex_assembleInstr hrotor k cnt char) hst hk,
    fun s st k cnt char hst hk hbad => ?_⟩
  · exact execute_of_bad_field hop (hbad.imp_right (Or.imp_right .inl)) s
  · rw [exec_of_commandBody_error hst (commandBody_of_rotor_notOneLetter hm hk hbad)]
    rfl

/-! ### ROT_FWD and ROT_BWD -/

theorem exec_rotFwd_letter {s : State} {st : Store} {k : Nat} {r : Rotor} (hst : s.cfgst = .ready st)
    (hr : st.rotors[k]? = some r) (i : Idx) :
    exec (.rotFwd k .one (letter i)) s = .next { s with answer := answered 0 0 (0x41 + (r.fwd i).val) } :=
  exec_of_commandBody_letter hst ((withRotor_some hr _).trans (withSym_sym i _))

theorem exec_rotBwd_letter {s : State} {st : Store} {k : Nat} {r : Rotor} (hst : s.cfgst = .ready st)
    (hr : st.rotors[k]? = some r) (y : Idx) :
    exec (.rotBwd k .one (letter y)) s = .next { s with answer := answered 0 0 (0x41 + (r.bwd y).val) } :=
  exec_of_commandBody_letter hst ((withRotor_some hr _).trans (withSym_sym y _))

/-- The forward substitution, with the entry it reads written out (R121). -/
theorem Rotor.fwd_eq_lookup {r : Rotor} {i p : Idx} (hp : p.val = (i.val + r.ofs.val) % 26) :
    r.fwd i = lookup r.table p := by
  obtain rfl : p = addMod i r.ofs := Fin.ext hp
  rfl

/-- The backward substitution of what a bijection holds at position `j` (R123). -/
theorem Rotor.bwd_lookup {r : Rotor} (h : r.table.Bijective) {j z : Idx}
    (hz : (z.val : Int) = ((j.val : Int) - r.ofs.val) % 26) : r.bwd (lookup r.table j) = z := by
  have hval := subMod_val j r.ofs
  rw [Rotor.bwd, inverseLookup_lookup h]
  exact Fin.ext (by omega)

/-- Settles O11: ROT_FWD is of class RS, and the index its letter is read from is the sum modulo 26 (R121, R122). -/
theorem rotFwdReadsTableAtIndexPlusOffset : Obligations.RotFwdReadsTableAtIndexPlusOffset := by
  refine ⟨rotorSymbolCommandChecks_of_class_RS (m := .rotFwd) rfl, fun s st k r i p hst hr hp => ?_⟩
  rw [exec_rotFwd_letter hst hr, Rotor.fwd_eq_lookup hp]

/-- Settles O12: ROT_BWD is of class RS, and the inverse lookup of entry `j` of a bijection is `j` (R53, R123, R124). -/
theorem rotBwdReturnsInversePositionMinusOffset : Obligations.RotBwdReturnsInversePositionMinusOffset := by
  refine ⟨rotorSymbolCommandChecks_of_class_RS (m := .rotBwd) rfl, ?_⟩
  rintro s st k r _ j z hst hr hbij rfl hz
  rw [exec_rotBwd_letter hst hr, Rotor.bwd_lookup hbij hz]

/-! ### The two substitutions undo each other -/

theorem Rotor.bwd_fwd {r : Rotor} (h : r.table.Bijective) (x : Idx) : r.bwd (r.fwd x) = x := by
  rw [Rotor.bwd, Rotor.fwd, inverseLookup_lookup h, subMod_addMod]

theorem Rotor.fwd_bwd {r : Rotor} (h : r.table.Bijective) (x : Idx) : r.fwd (r.bwd x) = x := by
  rw [Rotor.fwd, Rotor.bwd, addMod_subMod, lookup_inverseLookup h]

/-- Settles O42: the first command leaves the stores, so the second reads the same table at the same offset (R125). -/
theorem rotorSubstitutionsAreMutuallyInverse : Obligations.RotorSubstitutionsAreMutuallyInverse := by
  intro s st k x hst hwf hk
  obtain ⟨-, htables, -, -, -⟩ := hwf
  have hr := List.getElem?_eq_getElem hk
  have hbij := htables _ (List.getElem_mem hk)
  refine ⟨⟨_, _, exec_rotFwd_letter hst hr x, rfl, ?_⟩, ⟨_, _, exec_rotBwd_letter hst hr x, rfl, ?_⟩⟩
  · have hback := exec_rotBwd_letter (s := { s with answer := _ }) hst hr (st.rotors[k].fwd x)
    rwa [Rotor.bwd_fwd hbij] at hback
  · have hback := exec_rotFwd_letter (s := { s with answer := _ }) hst hr (st.rotors[k].bwd x)
    rwa [Rotor.fwd_bwd hbij] at hback

/-! ### One step of a rotor -/

theorem Rotor.carries_eq_false_iff (r : Rotor) : r.carries = false ↔ r.ofs.val ≠ 25 := by
  rw [← Bool.not_eq_true, Rotor.carries_iff]

theorem Rotor.eq_of_table_of_ofs {r q : Rotor} (htable : r.table = q.table) (hofs : r.ofs.val = q.ofs.val) : r = q := by
  rw [Rotor.mk.injEq]
  exact ⟨htable, Fin.ext hofs⟩

/-- The rotor after a step, where `o` is the offset R126 steps to. -/
theorem Rotor.stepped_eq {r : Rotor} {o : Idx} (hwrap : r.ofs.val = 25 → o.val = 0)
    (hnext : r.ofs.val ≠ 25 → o.val = r.ofs.val + 1) : r.stepped = { r with ofs := o } := by
  refine Rotor.eq_of_table_of_ofs r.stepped_table ?_
  rw [Rotor.stepped_ofs_val]
  split
  · next h => exact (hwrap h).symm
  · next h => exact (hnext h).symm

/-! ### ROT_STEP -/

/-- Class R takes no symbol, so CNT and CHAR are its "must be" fields (R73). -/
theorem mustBeFieldsOk_R_eq_false_iff {cw : Word} :
    mustBeFieldsOk .R cw = false ↔ cntField cw ≠ 0 ∨ charField cw ≠ 0 := by
  rw [← Bool.not_eq_true, mustBeFieldsOk_iff]
  simp [OperandClass.usesRotor, OperandClass.usesSymbol, imp_iff_not_or]

/-- ROT_STEP's word has OP and RIDX alone; CNT and CHAR add nothing (R73, R84). -/
theorem decode_word_rotStep {k : Nat} (hk : k < 256) :
    decode (BitVec.ofNat 32 (5 * 2 ^ 28 + k * 2 ^ 16)) = .ok (.rotStep k) := by
  have hword := decode_word_of_usesRotor (m := .rotStep) rfl hk (cnt := .zero) (char := 0#8) fun _ => ⟨rfl, rfl⟩
  rwa [Count.code, BitVec.toNat_zero, Nat.zero_mul, Nat.add_zero] at hword

/-- The result word of a step, as the statement writes it (R80, R127). -/
theorem resultPort_carry_eq_answered (r : Rotor) :
    some (.resultPort (Reply.word { carry := r.carries })) = answered 0 (if r.ofs.val = 25 then 1 else 0) 0 := by
  by_cases h : r.ofs.val = 25
  · rw [r.carries_iff.2 h, if_pos h]; rfl
  · rw [r.carries_eq_false_iff.2 h, if_neg h]; rfl

theorem exec_rotStep {s : State} {st : Store} {k : Nat} {r : Rotor} (hst : s.cfgst = .ready st)
    (hr : st.rotors[k]? = some r) :
    exec (.rotStep k) s = .next
      { s with cfgst := .ready (st.stepRotor k r), answer := answered 0 (if r.ofs.val = 25 then 1 else 0) 0 } := by
  rw [exec_eq_runCommand, runCommand_ok hst (withRotor_some hr _), State.complete, resultPort_carry_eq_answered]

/-- Settles O13: ROT_STEP is of class R, and what it writes is the stepped rotor in place of rotor k (R126, R127). -/
theorem rotStepAdvancesOneOffsetAndReportsCarry : Obligations.RotStepAdvancesOneOffsetAndReportsCarry := by
  refine ⟨fun _ => decode_word_rotStep, fun cw s hop hbad => ?_,
    fun s k hst => exec_unconfigured hst _, fun s st k hst hk => exec_of_rotorIndex rfl hst hk,
    fun s st k r o hst hr hwrap hnext => ?_⟩
  · rw [← mustBeFieldsOk_R_eq_false_iff] at hbad
    exact execute_of_bad_field (m := .rotStep) hop (hbad.imp_right (Or.imp_right .inr)) s
  · rw [exec_rotStep hst hr, Store.stepRotor, Rotor.stepped_eq hwrap hnext]

/-! ### Steps in a row -/

/-- A step adds one to the offset modulo 26. -/
theorem Rotor.stepped_ofs_val_eq_mod (r : Rotor) : r.stepped.ofs.val = (r.ofs.val + 1) % 26 := by
  have hofs := r.ofs.isLt
  rw [Rotor.stepped_ofs_val]
  split <;> omega

theorem Rotor.iterate_stepped_table (r : Rotor) (n : Nat) : (Rotor.stepped^[n] r).table = r.table := by
  induction n with
  | zero => rfl
  | succ n ih => rw [Function.iterate_succ_apply', Rotor.stepped_table, ih]

theorem Rotor.iterate_stepped_ofs_val (r : Rotor) (n : Nat) :
    (Rotor.stepped^[n] r).ofs.val = (r.ofs.val + n) % 26 := by
  induction n with
  | zero => exact (Nat.mod_eq_of_lt r.ofs.isLt).symm
  | succ n ih => rw [Function.iterate_succ_apply', Rotor.stepped_ofs_val_eq_mod, ih, Nat.mod_add_mod, Nat.add_assoc]

theorem Rotor.iterate_stepped_twentySix (r : Rotor) : Rotor.stepped^[26] r = r := by
  refine Rotor.eq_of_table_of_ofs (r.iterate_stepped_table 26) ?_
  rw [Rotor.iterate_stepped_ofs_val, Nat.add_mod_right, Nat.mod_eq_of_lt r.ofs.isLt]

/-- Among twenty-six steps in a row, the one that carries is the one from offset 25. -/
theorem Rotor.carries_iterate_stepped (r : Rotor) {n : Nat} (hn : n < 26) :
    (Rotor.stepped^[n] r).carries = (n == 25 - r.ofs.val) := by
  have hofs := r.ofs.isLt
  rw [Bool.eq_iff_iff, Rotor.carries_iff, Rotor.iterate_stepped_ofs_val, beq_iff_eq]
  omega

theorem Rotor.filter_carries_twentySix (r : Rotor) :
    ((List.range 26).filter fun n => (Rotor.stepped^[n] r).carries) = [25 - r.ofs.val] := by
  have hmem : 25 - r.ofs.val ∈ List.range 26 := List.mem_range.2 (by omega)
  calc (List.range 26).filter (fun n => (Rotor.stepped^[n] r).carries)
      = (List.range 26).filter (· == 25 - r.ofs.val) :=
        List.filter_congr fun _ hn => r.carries_iterate_stepped (List.mem_range.1 hn)
    _ = [25 - r.ofs.val] := by
        rw [List.filter_beq, List.count_eq_one_of_mem List.nodup_range hmem, List.replicate_one]

/-- Settles O46: a step adds one to the offset modulo 26, so twenty-six add nothing, and one of them is from 25 (R129). -/
theorem twentySixStepsReturnARotorWithOneCarry : Obligations.TwentySixStepsReturnARotorWithOneCarry := by
  intro r
  refine ⟨fun h => ⟨?_, r.carries_iff.2 h⟩, fun h => ⟨?_, r.carries_eq_false_iff.2 h⟩,
    r.iterate_stepped_twentySix, by rw [Rotor.filter_carries_twentySix, List.length_singleton]⟩
  · rw [Rotor.stepped_ofs_val, if_pos h]
  · rw [Rotor.stepped_ofs_val, if_neg h]

end Sys2Proof.Machine
end

section
/-! The engine commands (42_engine.md): the odometer step rotor by rotor and as a counter, the pipeline and its law, and the
commands ENG_STEP and PROCESS. -/

open Sys2Proof.Claims

namespace Sys2Proof.Machine

/-! ### The odometer step, rotor by rotor -/

/-- Rotor k steps exactly where every rotor before it carries (R145). -/
theorem rippleStep_getElem? (rs : List Rotor) (k : Nat) :
    (rippleStep rs)[k]? = if ∀ q ∈ rs.take k, q.carries = true then rs[k]?.map Rotor.stepped else rs[k]? := by
  induction rs generalizing k with
  | nil => simp [rippleStep]
  | cons r rs ih =>
    cases k with
    | zero => simp [rippleStep]
    | succ k => cases hr : r.carries <;> simp [rippleStep, hr, ih]

theorem forall_mem_take_iff {α : Type} {xs : List α} {k : Nat} {p : α → Prop} :
    (∀ x ∈ xs.take k, p x) ↔ ∀ j x, j < k → xs[j]? = some x → p x := by
  simp only [List.mem_iff_getElem?, List.getElem?_take, Option.ite_none_right_eq_some, forall_exists_index, and_imp]
  exact forall_comm

theorem rippled_rippleStep (rs : List Rotor) : Rippled rs (rippleStep rs) := by
  refine ⟨rippleStep_length rs, fun k r hr => ?_⟩
  have hget := rippleStep_getElem? rs k
  rw [hr, Option.map_some] at hget
  split at hget
  · next hall =>
    simp only [forall_mem_take_iff, Rotor.carries_iff] at hall
    refine ⟨_, hget, r.stepped_table, fun _ => r.stepped_ofs_val, ?_⟩
    rintro ⟨j, q, hj, hq, hne⟩
    exact absurd (hall j q hj hq) hne
  · next hnot =>
    simp only [forall_mem_take_iff, Rotor.carries_iff] at hnot
    exact ⟨r, hget, rfl, fun hall => absurd hall hnot, fun _ => rfl⟩

/-! ### The odometer value -/

theorem odometer_lt (rs : List Rotor) : odometer rs < 26 ^ rs.length := by
  induction rs with
  | nil => simp [odometer]
  | cons r rs ih =>
    have hofs := r.ofs.isLt
    rw [odometer, List.length_cons, Nat.pow_succ]
    omega

/-- The odometer step counts: a rotor that carries adds one to the number the rotors after it stand for (R145, R147). -/
theorem odometer_rippleStep (rs : List Rotor) :
    odometer (rippleStep rs) = (odometer rs + 1) % 26 ^ rs.length := by
  induction rs with
  | nil => rfl
  | cons r rs ih =>
    have hofs := r.ofs.isLt
    have hlt := odometer_lt rs
    have hstep := r.stepped_ofs_val
    have hcarry : r.ofs.val = 25 → r.ofs.val + 26 * odometer rs + 1 = 26 * (odometer rs + 1) := by omega
    rw [rippleStep, odometer, odometer, List.length_cons, Nat.pow_succ']
    by_cases h : r.ofs.val = 25
    · rw [if_pos (r.carries_iff.2 h), ih, hstep, if_pos h, hcarry h, Nat.mul_mod_mul_left, Nat.zero_add]
    · rw [if_neg (mt r.carries_iff.1 h), hstep, if_neg h, Nat.mod_eq_of_lt] <;> omega

/-- The tables and the odometer value determine the rotors: the offsets are the value's digits. -/
theorem rotors_eq_of_odometer_eq {rs qs : List Rotor} (htables : rs.map Rotor.table = qs.map Rotor.table)
    (hval : odometer rs = odometer qs) : rs = qs := by
  induction rs generalizing qs with
  | nil => exact (List.map_eq_nil_iff.1 htables.symm).symm
  | cons r rs ih =>
    cases qs with
    | nil => cases htables
    | cons q qs =>
      have hr := r.ofs.isLt
      have hq := q.ofs.isLt
      simp only [List.map_cons, List.cons.injEq] at htables
      simp only [odometer] at hval
      obtain ⟨htable, hrest⟩ := htables
      rw [Rotor.eq_of_table_of_ofs htable (by omega), ih hrest (by omega)]

/-- One rotor replaced: its digit of the odometer value is replaced, and no other. -/
theorem odometer_set {rs : List Rotor} {k : Nat} {r : Rotor} (hr : rs[k]? = some r) (q : Rotor) :
    odometer (rs.set k q) + 26 ^ k * r.ofs.val = odometer rs + 26 ^ k * q.ofs.val := by
  induction rs generalizing k with
  | nil => cases hr
  | cons p rs ih =>
    cases k with
    | zero =>
      cases hr
      simp only [List.set_cons_zero, odometer, Nat.pow_zero]
      omega
    | succ k =>
      have hrest := ih (k := k) hr
      simp only [List.set_cons_succ, odometer, Nat.pow_succ', Nat.mul_assoc]
      omega

/-! ### Odometer steps in a row -/

theorem sameWiring_trans {st₁ st₂ st₃ : Store} (h : SameWiring st₁ st₂) (h' : SameWiring st₂ st₃) :
    SameWiring st₁ st₃ := by
  obtain ⟨htables, hpb, hrf⟩ := h
  obtain ⟨htables', hpb', hrf'⟩ := h'
  exact ⟨htables'.trans htables, hpb'.trans hpb, hrf'.trans hrf⟩

/-- Stores with the same wiring and the same odometer value are the same. -/
theorem store_eq_of_odometer_eq {st st' : Store} (h : SameWiring st st')
    (hval : odometer st'.rotors = odometer st.rotors) : st' = st := by
  obtain ⟨htables, hpb, hrf⟩ := h
  rw [Store.mk.injEq]
  exact ⟨rotors_eq_of_odometer_eq htables hval, hpb, hrf⟩

theorem sameWiring_iterate_engineStep (st : Store) (n : Nat) : SameWiring st (Store.engineStep^[n] st) := by
  induction n with
  | zero => exact sameWiring_refl st
  | succ n ih =>
    rw [Function.iterate_succ_apply']
    exact sameWiring_trans ih (sameWiring_engineStep _)

theorem length_iterate_engineStep (st : Store) (n : Nat) :
    (Store.engineStep^[n] st).rotors.length = st.rotors.length :=
  length_eq_of_sameWiring (sameWiring_iterate_engineStep st n)

/-- n odometer steps add n to the odometer value (R147). -/
theorem odometer_iterate_engineStep (st : Store) (n : Nat) :
    odometer (Store.engineStep^[n] st).rotors = (odometer st.rotors + n) % 26 ^ st.rotors.length := by
  induction n with
  | zero => exact (Nat.mod_eq_of_lt (odometer_lt st.rotors)).symm
  | succ n ih =>
    rw [Function.iterate_succ_apply', Store.engineStep_rotors, odometer_rippleStep, length_iterate_engineStep, ih,
      Nat.mod_add_mod, Nat.add_assoc]

/-- The odometer's period is exactly 26^NROT (R147). -/
theorem iterate_engineStep_eq_self_iff (st : Store) (n : Nat) :
    Store.engineStep^[n] st = st ↔ 26 ^ st.rotors.length ∣ n := by
  have hval := odometer_iterate_engineStep st n
  calc Store.engineStep^[n] st = st
      ↔ odometer (Store.engineStep^[n] st).rotors = odometer st.rotors :=
        ⟨fun h => by rw [h], store_eq_of_odometer_eq (sameWiring_iterate_engineStep st n)⟩
    _ ↔ odometer st.rotors + n ≡ odometer st.rotors [MOD 26 ^ st.rotors.length] := by
        rw [hval, Nat.ModEq, Nat.mod_eq_of_lt (odometer_lt st.rotors)]
    _ ↔ 26 ^ st.rotors.length ∣ n := Nat.add_modEq_left_iff

/-! ### ENG_STEP -/

theorem decode_engStep : decode 0x60000000 = .ok .engStep := by decide

/-- ENG_STEP has no operand, so its word is the only one with its opcode that decodes (R73, R146). -/
theorem decode_rejects_of_opcode_engStep {cw : Word} (hop : (opField cw).toNat = 6) (hne : cw ≠ 0x60000000) :
    decode cw = .error .illegalCommand := by
  rcases hd : decode cw with _ | i
  · rfl
  · obtain ⟨hop', -, -, -, -, -⟩ := decode_eq_ok_iff.1 hd
    have hword := encode_of_decode hd
    rw [hop] at hop'
    cases i with
    | engStep => exact absurd (hword.symm.trans (encode_of_decode decode_engStep)) hne
    | pbSwap | rfSwap | rotFwd | rotBwd | rotStep | process => cases hop'

theorem exec_engStep {s : State} {st : Store} (hst : s.cfgst = .ready st) :
    exec .engStep s = .next { s with cfgst := .ready st.engineStep, answer := answered 0 0 0 } := by
  rw [exec_eq_runCommand, runCommand_ok (body := commandBody .engStep) hst rfl]
  rfl

/-- Settles O14: the word with no operand is the only one, and the rotors step as the odometer does (R145, R146). -/
theorem engStepRipplesTheOffsets : Obligations.EngStepRipplesTheOffsets := by
  refine ⟨decode_engStep, fun cw s hop hne => ?_, fun s hst => exec_unconfigured hst _,
    fun s st hst => ⟨_, rippled_rippleStep st.rotors, exec_engStep hst⟩⟩
  rw [execute_of_reject (decode_rejects_of_opcode_engStep hop hne), State.raise_illegalCommand]

/-- The block performs n presented ENG_STEP words one after another, and nothing else (R58). -/
theorem run_engSteps {s : State} {st : Store} {n : Nat} {rest : List Access} (hst : s.cfgst = .ready st)
    (hq : s.hostQueue = List.replicate n (.command 0x60000000) ++ rest) :
    ∃ t, Host.Core.run Sys2Proof.core n s = .next t ∧ t.hostQueue = rest ∧
      t.cfgst = .ready (Store.engineStep^[n] st) := by
  induction n generalizing s st with
  | zero => exact ⟨s, rfl, hq, hst⟩
  | succ n ih =>
    have hstep := (stepRunsTheDecodedCommand s _ _ _ hq decode_engStep).trans
      (exec_engStep (s := { s with hostQueue := _ }) hst)
    rw [run_succ_of_step hstep]
    exact ih rfl rfl

/-- Settles O44: the run performs n odometer steps, each adds one to the value, and wiring and value determine the stores
(R147). -/
theorem engStepCountsModuloTwentySixToTheRotors : Obligations.EngStepCountsModuloTwentySixToTheRotors := by
  intro s st n rest hst hq
  obtain ⟨t, hrun, hrest, ht⟩ := run_engSteps hst hq
  exact ⟨odometer_lt st.rotors, t, _, hrun, hrest, ht, sameWiring_iterate_engineStep st n,
    odometer_iterate_engineStep st n, iterate_engineStep_eq_self_iff st n⟩

/-- Settles O45: ROT_STEP replaces rotor k, and with it digit k, by the stepped one (R148). -/
theorem rotStepReplacesOneOdometerDigit : Obligations.RotStepReplacesOneOdometerDigit := by
  intro s st k r hst hr
  refine ⟨_, st.stepRotor k r, exec_rotStep hst hr, rfl, fun j hj => ?_, ?_⟩
  · rw [Store.stepRotor_rotors, List.getElem?_set_ne (Ne.symm hj)]
  · rw [Store.stepRotor_rotors, odometer_set hr, Rotor.stepped_ofs_val_eq_mod]

/-! ### The pipeline, letter by letter -/

/-- The letter that enters rotor k on the forward pass of letter i (R142). -/
def forwardLetter (st : Store) (i : Idx) (k : Nat) : Idx := forwardPass (st.rotors.take k) (lookup st.pb i)

/-- The letter that leaves rotor k on the backward pass (R142). -/
def backwardLetter (st : Store) (i : Idx) (k : Nat) : Idx :=
  backwardPass (st.rotors.drop k) (lookup st.rf (forwardLetter st i st.rotors.length))

theorem forwardLetter_zero (st : Store) (i : Idx) : forwardLetter st i 0 = lookup st.pb i := rfl

theorem forwardLetter_succ {st : Store} {k : Nat} {r : Rotor} (hr : st.rotors[k]? = some r) (i : Idx) :
    forwardLetter st i (k + 1) = r.fwd (forwardLetter st i k) := by
  simp [forwardLetter, forwardPass, List.take_add_one, hr]

theorem backwardLetter_length (st : Store) (i : Idx) :
    backwardLetter st i st.rotors.length = lookup st.rf (forwardLetter st i st.rotors.length) := by
  simp [backwardLetter, backwardPass]

theorem backwardLetter_of_getElem? {st : Store} {k : Nat} {r : Rotor} (hr : st.rotors[k]? = some r) (i : Idx) :
    backwardLetter st i k = r.bwd (backwardLetter st i (k + 1)) := by
  obtain ⟨hk, rfl⟩ := List.getElem?_eq_some_iff.1 hr
  rw [backwardLetter, List.drop_eq_getElem_cons hk]
  rfl

theorem pipe_eq_backwardLetter (st : Store) (i : Idx) : pipe st i = lookup st.pb (backwardLetter st i 0) := by
  simp [pipe, backwardLetter, forwardLetter]

/-- The pipeline's letters are those R142 traces, where the inverse lookups are those of bijections. -/
theorem traced_pipeline {st : Store} (h : ∀ r ∈ st.rotors, r.table.Bijective) (i : Idx) :
    Traced st i (forwardLetter st i) (backwardLetter st i) := by
  refine ⟨forwardLetter_zero st i, fun k r hr => ?_, backwardLetter_length st i, fun k r hr => ?_⟩
  · exact ⟨addMod (forwardLetter st i k) r.ofs, addMod_val _ _, forwardLetter_succ hr i⟩
  · refine ⟨_, lookup_inverseLookup (h r (List.mem_of_getElem? hr)) _, ?_⟩
    rw [backwardLetter_of_getElem? hr]
    exact subMod_val _ _

/-! ### The pipeline undoes itself -/

theorem backwardPass_forwardPass {rs : List Rotor} (h : ∀ r ∈ rs, r.table.Bijective) (x : Idx) :
    backwardPass rs (forwardPass rs x) = x := by
  induction rs generalizing x with
  | nil => rfl
  | cons r rs ih =>
    obtain ⟨hr, hrs⟩ := List.forall_mem_cons.1 h
    exact (congrArg r.bwd (ih hrs _)).trans (Rotor.bwd_fwd hr x)

theorem forwardPass_backwardPass {rs : List Rotor} (h : ∀ r ∈ rs, r.table.Bijective) (y : Idx) :
    forwardPass rs (backwardPass rs y) = y := by
  induction rs with
  | nil => rfl
  | cons r rs ih =>
    obtain ⟨hr, hrs⟩ := List.forall_mem_cons.1 h
    exact (congrArg (forwardPass rs) (Rotor.fwd_bwd hr _)).trans (ih hrs)

/-- Plugboard and reflector are involutions and the passes undo each other, so from the inside out each part cancels its
counterpart (R144). -/
theorem pipe_pipe {st : Store} (h : st.Wf) (x : Idx) : pipe st (pipe st x) = x := by
  obtain ⟨-, htables, hpb, hrf, -⟩ := h
  simp only [pipe, hpb _, hrf _, forwardPass_backwardPass htables, backwardPass_forwardPass htables]

/-- A fixed point of the pipeline would be one of the reflector (R144). -/
theorem pipe_ne {st : Store} (h : st.Wf) (x : Idx) : pipe st x ≠ x := by
  obtain ⟨-, htables, hpb, -, hfree⟩ := h
  intro hx
  have hback := congrArg (lookup st.pb) hx
  rw [pipe, hpb] at hback
  have hrefl := congrArg (forwardPass st.rotors) hback
  rw [forwardPass_backwardPass htables] at hrefl
  exact hfree _ hrefl

/-! ### PROCESS -/

theorem exec_process_letter {s : State} {st : Store} (hst : s.cfgst = .ready st) (i : Idx) :
    exec (.process .one (letter i)) s = .next
      { s with cfgst := .ready st.engineStep, answer := answered 0 0 (0x41 + (pipe st i).val) } := by
  rw [exec_eq_runCommand, runCommand_ok hst (withSym_sym i _), State.complete, resultPort_letter_eq_answered]

/-- Settles O15: PROCESS is of class S, its letter is the pipeline's at the offsets before the step, and the rotors step as
the odometer does (R141, R142). -/
theorem processEnciphersThenRipplesTheOffsets : Obligations.ProcessEnciphersThenRipplesTheOffsets := by
  refine ⟨symbolCommandChecks_of_class_S (m := .process) rfl, fun s st i hst htables =>
    ⟨_, _, _, rippled_rippleStep st.rotors, traced_pipeline htables i, ?_⟩⟩
  rw [exec_process_letter hst, pipe_eq_backwardLetter]
  rfl

/-- Settles O43: both commands read the same stores, where the pipeline is an involution without fixed point, and step the
same offsets (R144). -/
theorem processIsReciprocalWithoutFixedPoint : Obligations.ProcessIsReciprocalWithoutFixedPoint := by
  intro s st x hst hwf
  have hback := exec_process_letter hst (pipe st x)
  rw [pipe_pipe hwf] at hback
  exact ⟨_, _, pipe st x, exec_process_letter hst x, rfl, pipe_ne hwf x, hback, rfl, rfl⟩

end Sys2Proof.Machine
end

section
/-! PROCESS_MANY (42_engine.md R150 to R152): a message of letters with whatever follows it, and that what a block answers does
not depend on the accesses still to present. -/

open Sys2Proof.Claims

namespace Sys2Proof.Machine

/-! ### The first character of a message -/

/-- A first character whose PROCESS fails ends the message (R150). -/
theorem processMany_cons_of_error {c : Byte} {s t : State} {rw : Word} (he : execute (processWord c) s = .next t)
    (hrw : t.answer = some (.resultPort rw)) (herr : statusField rw ≠ 0) (cs : List Byte) :
    processMany (c :: cs) s = .next { out := [], status := statusField rw, state := t } := by
  simp only [processMany, he, State.result?_of_answer hrw, herr, if_false]

theorem processMany_cons_of_raise {c : Byte} {s : State} {e : Err}
    (he : execute (processWord c) s = .next (s.raise e)) (cs : List Byte) :
    processMany (c :: cs) s = .next { out := [], status := statusField e.word, state := s.raise e } :=
  processMany_cons_of_error he (s.raise_answer e) (statusField_errWord_ne_zero e) cs

theorem execute_processWord_unconfigured {s : State} (hst : s.cfgst = .unconfigured) (c : Byte) :
    execute (processWord c) s = .next (s.raise .notConfigured) := by
  rw [execute_of_decode (decode_processWord c), exec_eq_runCommand, runCommand_unconfigured hst]

theorem execute_processWord_of_notOneLetter {s : State} {st : Store} (hst : s.cfgst = .ready st) {c : Byte}
    (hc : NotOneLetter .one c) : execute (processWord c) s = .next (s.raise .invalidInput) := by
  rw [execute_of_decode (decode_processWord c), exec_eq_runCommand]
  exact runCommand_error hst (commandBody_of_notOneLetter (m := .process) rfl hc st)

/-! ### A message of letters -/

/-- The pipeline's letters for a text, with an odometer step after each (R150, R151). -/
def cipherText (st : Store) : List Idx → List Idx
  | [] => []
  | x :: xs => pipe st x :: cipherText st.engineStep xs

@[simp] theorem cipherText_length (st : Store) (text : List Idx) : (cipherText st text).length = text.length := by
  induction text generalizing st with
  | nil => rfl
  | cons x xs ih => simp [cipherText, ih]

/-- Letter j is enciphered after j odometer steps (R151). -/
theorem cipherText_getElem? (st : Store) (text : List Idx) (j : Nat) :
    (cipherText st text)[j]? = text[j]?.map (pipe (Store.engineStep^[j] st)) := by
  induction text generalizing st j with
  | nil => rfl
  | cons x xs ih =>
    cases j with
    | zero => rfl
    | succ j => exact ih st.engineStep j

/-- The letters of a text are processed one after another, and what follows them then starts from the state they leave. -/
theorem processMany_letters_append {s : State} {st : Store} (hst : s.cfgst = .ready st) (text : List Idx) :
    ∃ t, t.cfgst = .ready (Store.engineStep^[text.length] st) ∧
      ∀ cs m, processMany cs t = .next m →
        processMany (text.map letter ++ cs) s = .next { m with out := (cipherText st text).map letter ++ m.out } := by
  induction text generalizing s st with
  | nil => exact ⟨s, hst, fun _ _ hm => hm⟩
  | cons x xs ih =>
    obtain ⟨t, ht, happend⟩ := ih (s.complete_cfgst st.engineStep { sym := sym (pipe st x) })
    exact ⟨t, ht, fun cs m hm => processMany_cons_letter hst x (happend cs m hm)⟩

/-- A message of letters gives as many letters and leaves the odometer as far on (R150, R151). -/
theorem processMany_letters {s : State} {st : Store} (hst : s.cfgst = .ready st) (text : List Idx) :
    ∃ t, t.cfgst = .ready (Store.engineStep^[text.length] st) ∧
      processMany (text.map letter) s = .next { out := (cipherText st text).map letter, status := 0, state := t } := by
  obtain ⟨t, ht, happend⟩ := processMany_letters_append hst text
  have hwhole := happend [] _ rfl
  rw [List.append_nil, List.append_nil] at hwhole
  exact ⟨t, ht, hwhole⟩

/-- Letters followed by a character that is no letter: the letters are processed, the character changes nothing but the
answer, and the text ends there (R150). -/
theorem processMany_letters_then_notOneLetter {s : State} {st : Store} (hst : s.cfgst = .ready st) (pre : List Idx)
    {c : Byte} (hc : NotOneLetter .one c) (post : List Byte) :
    ∃ out t, processMany (pre.map letter) s = .next { out := out, status := 0, state := t } ∧
      processMany (pre.map letter ++ c :: post) s =
        .next { out := out, status := 1, state := { t with answer := answered 1 0 0 } } := by
  obtain ⟨t, ht, happend⟩ := processMany_letters_append hst pre
  have hletters := happend [] _ rfl
  have hstop := happend _ _ (processMany_cons_of_raise (execute_processWord_of_notOneLetter ht hc) post)
  rw [List.append_nil, List.append_nil] at hletters
  rw [List.append_nil, State.raise_eq_answered] at hstop
  exact ⟨_, t, hletters, hstop⟩

/-- Settles O47: the loop's two outcomes for a first character, and what the letters before a later one leave (R150, R173,
R176). -/
theorem messageStopsAtTheFirstFailingCharacter : Obligations.MessageStopsAtTheFirstFailingCharacter := by
  refine ⟨fun _ => rfl, fun c cs s t rw m he hrw hok hm => ?_, fun c cs s t rw he hrw herr => ?_,
    fun c cs s hst => ?_, fun s st pre c post hst hc => processMany_letters_then_notOneLetter hst pre hc post⟩
  · rw [← processWord_eq] at he
    exact processMany_cons_of_ok he hrw hok hm
  · rw [← processWord_eq] at he
    exact processMany_cons_of_error he hrw herr cs
  · rw [processMany_cons_of_raise (execute_processWord_unconfigured hst c), State.raise_eq_answered]
    rfl

/-! ### The accesses still to present are not read -/

theorem runCommand_hostQueue {body : Store → Except Err (Store × Reply)} {s t : State} (h : runCommand body s = .next t)
    (q : List Access) : runCommand body { s with hostQueue := q } = .next { t with hostQueue := q } := by
  rcases runCommand_cases h with ⟨hst, rfl⟩ | ⟨_, _, hst, hb, rfl⟩ | ⟨_, _, _, hst, hb, rfl⟩
  · exact runCommand_unconfigured (s := { s with hostQueue := q }) hst body
  · exact runCommand_error (s := { s with hostQueue := q }) hst hb
  · exact runCommand_ok (s := { s with hostQueue := q }) hst hb

theorem execute_hostQueue {cw : Word} {s t : State} (h : execute cw s = .next t) (q : List Access) :
    execute cw { s with hostQueue := q } = .next { t with hostQueue := q } := by
  rcases hd : decode cw with e | i
  · rw [execute_of_reject hd] at h
    cases h
    exact execute_of_reject hd _
  · rw [execute_of_decode hd, exec_eq_runCommand] at h
    rw [execute_of_decode hd, exec_eq_runCommand, runCommand_hostQueue h]

/-- A message always ends, and with the same output and status whatever the host has still to present. -/
theorem processMany_hostQueue (text : List Byte) (s : State) :
    ∃ m, processMany text s = .next m ∧ ∀ q, processMany text { s with hostQueue := q } =
      .next { m with state := { m.state with hostQueue := q } } := by
  induction text generalizing s with
  | nil => exact ⟨_, rfl, fun _ => rfl⟩
  | cons c cs ih =>
    obtain ⟨t, rw, he, hrw⟩ := execute_answers (processWord c) s
    by_cases hok : statusField rw = 0
    · obtain ⟨m, hm, hq⟩ := ih t
      exact ⟨_, processMany_cons_of_ok he hrw hok hm, fun q =>
        processMany_cons_of_ok (execute_hostQueue he q) hrw hok (hq q)⟩
    · exact ⟨_, processMany_cons_of_error he hrw hok cs, fun q =>
        processMany_cons_of_error (execute_hostQueue he q) hrw hok cs⟩

/-- Two blocks reset with one record differ in what their hosts have still to present alone (R204). -/
theorem applyReset_eq_with_hostQueue (c : Cfg) (s s' : State) :
    applyReset c s' = { applyReset c s with hostQueue := s'.hostQueue } := by
  unfold applyReset
  split <;> rfl

theorem processMany_applyReset {c : Cfg} {s : State} {text : List Byte} {m : Message}
    (h : processMany text (applyReset c s) = .next m) (s' : State) :
    ∃ m', processMany text (applyReset c s') = .next m' ∧ m'.out = m.out ∧ m'.status = m.status := by
  obtain ⟨_, hm, hq⟩ := processMany_hostQueue text (applyReset c s)
  cases hm.symm.trans h
  rw [applyReset_eq_with_hostQueue c s s']
  exact ⟨_, hq s'.hostQueue, rfl, rfl⟩

/-- Settles O48: letter j is the pipeline's after j odometer steps, and a message after a reset reads nothing of the state
before it (R151, R152). -/
theorem messageAdvancesTheOdometerByItsLength : Obligations.MessageAdvancesTheOdometerByItsLength := by
  refine ⟨fun s st text hst => ?_, fun c s s' text m h => processMany_applyReset h s'⟩
  obtain ⟨t, ht, hmessage⟩ := processMany_letters hst text
  refine ⟨_, t, _, hmessage, by simp, ht, sameWiring_iterate_engineStep st _, odometer_iterate_engineStep st _,
    fun j x hx => ⟨Store.engineStep^[j] st, sameWiring_iterate_engineStep st j, length_iterate_engineStep st j,
      odometer_iterate_engineStep st j, ?_⟩⟩
  rw [List.getElem?_map, cipherText_getElem?, hx, Option.map_some, Option.map_some]

end Sys2Proof.Machine
end

section
/-! Two blocks reset with one record (42_engine.md R149): the stores a valid record gives meet R207's invariants, and on such
stores the message enciphered twice from the same offsets is the message. -/

open Sys2Proof.Claims

namespace Sys2Proof.Machine

/-! ### The tables of a valid record -/

theorem toIdx_inj {a b : Int} (ha : IsIndex a) (hb : IsIndex b) (h : toIdx a = toIdx b) : a = b := by
  have hval := congrArg Fin.val h
  simp only [toIdx] at hval
  omega

theorem lookup_loadTable {t : List Int} {i : Idx} {x : Int} (h : t[i.val]? = some x) :
    lookup (loadTable t) i = toIdx x := by
  rw [loadTable, lookup_tableOf, List.getD_eq_getElem?_getD, h, Option.getD_some]

/-- Distinct entries make a table one to one, and so, on 26 indices, onto (R205 V2, R207). -/
theorem bijective_loadTable {t : List Int} (h : IsPermutationTable t) : (loadTable t).Bijective := by
  obtain ⟨hlen, hidx, hnodup⟩ := h
  have hget (i : Idx) : t[i.val]? = some (t[i.val]'(by omega)) := List.getElem?_eq_getElem _
  have hinj : Function.Injective (lookup (loadTable t)) := by
    intro i j hij
    rw [lookup_loadTable (hget i), lookup_loadTable (hget j)] at hij
    have hentry := toIdx_inj (hidx _ (List.getElem_mem _)) (hidx _ (List.getElem_mem _)) hij
    exact Fin.ext ((List.Nodup.getElem_inj_iff hnodup).1 hentry)
  exact ⟨fun _ _ h => hinj h, Finite.surjective_of_injective hinj⟩

/-! ### The map of a list of pairs -/

theorem partnerIn_cons (p : Int × Int) (ps : List (Int × Int)) (i : Idx) : partnerIn (p :: ps) i =
    if toIdx p.1 = i then toIdx p.2 else if toIdx p.2 = i then toIdx p.1 else partnerIn ps i := rfl

theorem pairMembers_cons (p : Int × Int) (ps : List (Int × Int)) :
    pairMembers (p :: ps) = p.1 :: p.2 :: pairMembers ps := rfl

theorem mem_pairMembers_iff {ps : List (Int × Int)} {x : Int} :
    x ∈ pairMembers ps ↔ ∃ p ∈ ps, x = p.1 ∨ x = p.2 := by
  simp [pairMembers]

theorem pairMembers_length (ps : List (Int × Int)) : (pairMembers ps).length = 2 * ps.length := by
  induction ps with
  | nil => rfl
  | cons p ps ih => rw [pairMembers_cons, List.length_cons, List.length_cons, List.length_cons, ih]; omega

theorem isIndex_of_mem_pairMembers {ps : List (Int × Int)} (h : IsPairing ps) {x : Int} (hx : x ∈ pairMembers ps) :
    IsIndex x := by
  obtain ⟨hpairs, -⟩ := h
  obtain ⟨p, hp, rfl | rfl⟩ := mem_pairMembers_iff.1 hx
  · exact (hpairs p hp).1
  · exact (hpairs p hp).2.1

/-- The indices in all pairs of a checked list are distinct, as its numbers are (R205 V4). -/
theorem nodup_map_toIdx_pairMembers {ps : List (Int × Int)} (h : IsPairing ps) :
    ((pairMembers ps).map toIdx).Nodup :=
  List.Nodup.map_on
    (fun _ hx _ hy => toIdx_inj (isIndex_of_mem_pairMembers h hx) (isIndex_of_mem_pairMembers h hy)) h.2

/-- An index in no pair is its own partner (R206). -/
theorem partnerIn_of_notMem {ps : List (Int × Int)} {i : Idx} (h : i ∉ (pairMembers ps).map toIdx) :
    partnerIn ps i = i := by
  induction ps with
  | nil => rfl
  | cons p ps ih =>
    simp only [pairMembers_cons, List.map_cons, List.mem_cons, not_or] at h
    obtain ⟨hfst, hsnd, hrest⟩ := h
    rw [partnerIn_cons, if_neg (Ne.symm hfst), if_neg (Ne.symm hsnd), ih hrest]

/-- The members of a pair are partners and differ (R206). -/
theorem partnerIn_of_mem {ps : List (Int × Int)} (h : ((pairMembers ps).map toIdx).Nodup) {p : Int × Int} (hp : p ∈ ps) :
    toIdx p.1 ≠ toIdx p.2 ∧ partnerIn ps (toIdx p.1) = toIdx p.2 ∧ partnerIn ps (toIdx p.2) = toIdx p.1 := by
  induction ps with
  | nil => cases hp
  | cons q ps ih =>
    simp only [pairMembers_cons, List.map_cons, List.nodup_cons, List.mem_cons, not_or] at h
    obtain ⟨⟨hdiff, hfst⟩, hsnd, hrest⟩ := h
    rcases List.mem_cons.1 hp with rfl | hp
    · exact ⟨hdiff, by rw [partnerIn_cons, if_pos rfl], by rw [partnerIn_cons, if_neg hdiff, if_pos rfl]⟩
    · have hskip {x : Int} (hx : x ∈ pairMembers ps) : partnerIn (q :: ps) (toIdx x) = partnerIn ps (toIdx x) := by
        have hmem := List.mem_map_of_mem (f := toIdx) hx
        have hfst' : toIdx q.1 ≠ toIdx x := fun e => hfst (e ▸ hmem)
        have hsnd' : toIdx q.2 ≠ toIdx x := fun e => hsnd (e ▸ hmem)
        rw [partnerIn_cons, if_neg hfst', if_neg hsnd']
      rw [hskip (mem_pairMembers_iff.2 ⟨p, hp, .inl rfl⟩), hskip (mem_pairMembers_iff.2 ⟨p, hp, .inr rfl⟩)]
      exact ih hrest hp

/-- An index and its partner are the two members of one pair, or are the same index in no pair (R206). -/
theorem partnerIn_partnerIn {ps : List (Int × Int)} (h : IsPairing ps) (i : Idx) :
    partnerIn ps (partnerIn ps i) = i := by
  by_cases hi : i ∈ (pairMembers ps).map toIdx
  · obtain ⟨x, hx, rfl⟩ := List.mem_map.1 hi
    obtain ⟨p, hp, hxp⟩ := mem_pairMembers_iff.1 hx
    obtain ⟨-, hfst, hsnd⟩ := partnerIn_of_mem (nodup_map_toIdx_pairMembers h) hp
    rcases hxp with rfl | rfl
    · rw [hfst, hsnd]
    · rw [hsnd, hfst]
  · rw [partnerIn_of_notMem hi, partnerIn_of_notMem hi]

theorem partnerIn_ne {ps : List (Int × Int)} (h : IsPairing ps) {i : Idx} (hi : i ∈ (pairMembers ps).map toIdx) :
    partnerIn ps i ≠ i := by
  obtain ⟨x, hx, rfl⟩ := List.mem_map.1 hi
  obtain ⟨p, hp, hxp⟩ := mem_pairMembers_iff.1 hx
  obtain ⟨hdiff, hfst, hsnd⟩ := partnerIn_of_mem (nodup_map_toIdx_pairMembers h) hp
  rcases hxp with rfl | rfl
  · rw [hfst]; exact Ne.symm hdiff
  · rw [hsnd]; exact hdiff

/-- Thirteen pairs hold all 26 indices (R205 V5). -/
theorem mem_map_toIdx_pairMembers {ps : List (Int × Int)} (h : IsPairing ps) (hlen : ps.length = Config.pairMax)
    (i : Idx) : i ∈ (pairMembers ps).map toIdx := by
  have hcard : ((pairMembers ps).map toIdx).toFinset.card = Fintype.card Idx := by
    rw [List.toFinset_card_of_nodup (nodup_map_toIdx_pairMembers h), List.length_map, pairMembers_length, hlen]
    rfl
  rw [← List.mem_toFinset, (Finset.card_eq_iff_eq_univ _).1 hcard]
  exact Finset.mem_univ i

theorem involutive_mapOf {ps : List (Int × Int)} (h : IsPairing ps) : (mapOf ps).Involutive := by
  intro i
  simp only [mapOf, lookup_tableOf, partnerIn_partnerIn h]

theorem fixedPointFree_mapOf {ps : List (Int × Int)} (h : IsPairing ps) (hlen : ps.length = Config.pairMax) :
    (mapOf ps).FixedPointFree := by
  intro i
  rw [mapOf, lookup_tableOf]
  exact partnerIn_ne h (mem_map_toIdx_pairMembers h hlen i)

/-! ### The stores of a valid record -/

theorem Cfg.load_rotors_length {c : Cfg} (h : c.rotorCountOk) : (c.load.rotors.length : Int) = c.nrot := by
  obtain ⟨-, -, htables, hshifts⟩ := h
  simp only [Cfg.load, List.length_zipWith]
  omega

theorem Cfg.exists_table_of_mem_load {c : Cfg} {r : Rotor} (hr : r ∈ c.load.rotors) :
    ∃ t ∈ c.table, r.table = loadTable t := by
  obtain ⟨k, hk⟩ := List.mem_iff_getElem?.1 hr
  obtain ⟨t, o, ht, -, rfl⟩ := List.getElem?_zipWith_eq_some.1 hk
  exact ⟨t, List.mem_of_getElem? ht, rfl⟩

/-- A valid record loads stores that meet the invariants (R207). -/
theorem Cfg.load_wf {c : Cfg} (h : c.Valid) : c.load.Wf := by
  obtain ⟨hcount, htables, -, ⟨-, hplug⟩, hlen, hrefl⟩ := h
  have hnrot := Cfg.load_rotors_length hcount
  obtain ⟨hpos, hmax, -, -⟩ := hcount
  refine ⟨⟨?_, ?_⟩, fun r hr => ?_, involutive_mapOf hplug, involutive_mapOf hrefl, fixedPointFree_mapOf hrefl hlen⟩
  · rw [Store.nrot]; omega
  · rw [Store.nrot]; omega
  · obtain ⟨t, ht, htable⟩ := Cfg.exists_table_of_mem_load hr
    rw [htable]
    exact bijective_loadTable (htables t ht)

theorem applyReset_cfgst_of_valid {c : Cfg} (h : c.Valid) (s : State) : (applyReset c s).cfgst = .ready c.load := by
  rw [applyReset, if_pos h]

/-! ### Enciphering twice -/

/-- The invariants speak of the wiring alone, so whatever keeps the wiring keeps them (R207). -/
theorem wf_of_sameWiring {st st' : Store} (h : SameWiring st st') (hwf : st.Wf) : st'.Wf := by
  have hlen := length_eq_of_sameWiring h
  obtain ⟨htables, hpb, hrf⟩ := h
  obtain ⟨hnrot, hbij, hplug, hrefl, hfree⟩ := hwf
  have hnrot' : st'.nrot = st.nrot := hlen
  rw [← hpb] at hplug
  rw [← hrf] at hrefl hfree
  refine ⟨hnrot' ▸ hnrot, fun r hr => ?_, hplug, hrefl, hfree⟩
  obtain ⟨q, hq, hqr⟩ := List.mem_map.1 (htables ▸ List.mem_map_of_mem (f := Rotor.table) hr)
  rw [← hqr]
  exact hbij q hq

/-- Each letter is enciphered the second time at the offsets of the first, where the pipeline undoes itself (R144, R149). -/
theorem cipherText_cipherText {st : Store} (h : st.Wf) (text : List Idx) :
    cipherText st (cipherText st text) = text := by
  induction text generalizing st with
  | nil => rfl
  | cons x xs ih => rw [cipherText, cipherText, pipe_pipe h, ih (wf_of_sameWiring (sameWiring_engineStep st) h)]

theorem ne_of_cipherText {st : Store} (h : st.Wf) {text : List Idx} {j : Nat} {x y : Idx} (hx : text[j]? = some x)
    (hy : (cipherText st text)[j]? = some y) : x ≠ y := by
  rw [cipherText_getElem?, hx] at hy
  cases hy
  exact (pipe_ne (wf_of_sameWiring (sameWiring_iterate_engineStep st j) h) x).symm

/-- Settles O49: both blocks start from the record's stores, and the two messages have the same number of odometer steps
(R149). -/
theorem secondBlockDeciphersTheFirst : Obligations.SecondBlockDeciphersTheFirst := by
  intro c a b text hvalid
  have hwf := Cfg.load_wf hvalid
  obtain ⟨ta, hta, hma⟩ := processMany_letters (applyReset_cfgst_of_valid hvalid a) text
  obtain ⟨tb, htb, hmb⟩ := processMany_letters (applyReset_cfgst_of_valid hvalid b) (cipherText c.load text)
  rw [cipherText_cipherText hwf] at hmb
  rw [cipherText_length] at htb
  exact ⟨cipherText c.load text, ta, tb, hma, hmb, hta.trans htb.symm, cipherText_length c.load text,
    fun j x y hx hy => ne_of_cipherText hwf hx hy⟩

end Sys2Proof.Machine
end

section
/-! Errors (60_exceptions.md): what a failed access leaves (R178), which error is reported (R176, R180), and that there is no
other (R177). -/

open Sys2Proof.Claims

namespace Sys2Proof.Machine

/-! ### What a failed access leaves -/

/-- The word of an error is its STATUS alone (R172). -/
theorem errWord_eq_status (e : Err) : e.word = BitVec.ofNat 32 ((statusField e.word).toNat * 2 ^ 28) := by
  obtain ⟨hstatus, -, -, -⟩ := fields_errWord e
  rw [hstatus, ← Nat.shiftLeft_eq]
  rfl

theorem applyReset_cfgst_of_failed {c : Cfg} {s : State} (h : (applyReset c s).answer = resetAnswered 2) :
    (applyReset c s).cfgst = .unconfigured := by
  by_cases hc : c.Valid
  · simp only [applyReset, if_pos hc] at h
    exact absurd h (by decide)
  · simp only [applyReset, if_neg hc]

/-- Settles O18: a command that does not raise answers STATUS 0, and an error's word is its STATUS alone. -/
theorem failedCommandsWriteNoState : Obligations.FailedCommandsWriteNoState := by
  refine ⟨fun cw s t rw hx hans hfail => ?_, fun _ _ => applyReset_cfgst_of_failed⟩
  rcases execute_cases hx with ⟨e, rfl⟩ | ⟨_, _, _, r, -, -, -, rfl⟩
  · simp only [State.raise_answer, Option.some.injEq, Answer.resultPort.injEq] at hans
    subst hans
    exact ⟨rfl, errWord_eq_status e⟩
  · simp only [State.complete_answer, Option.some.injEq, Answer.resultPort.injEq] at hans
    subst hans
    exact absurd (statusField_word r) hfail

/-! ### Which error is reported -/

/-- Settles O29: every command is its checks and effect inside the one skeleton, which looks at CFGST first. -/
theorem unconfiguredBlockAnswersNotConfigured : Obligations.UnconfiguredBlockAnswersNotConfigured :=
  fun i _ h => exec_unconfigured h i

/-- After the rotor-index check a command has the symbol check alone, where its class takes a symbol, and then succeeds
(R171, R180). -/
theorem commandBody_after_rotorCheck {i : Instr} {st : Store}
    (hrotor : ∀ k, i.rotorIndex = some k → k < st.rotors.length) :
    (i.mnemonic.operandClass.usesSymbol = true ∧ ∃ f : Idx → Store × Reply,
      commandBody i st = withSym i.symbolOperand.1 i.symbolOperand.2 fun x => .ok (f x)) ∨
    (i.mnemonic.operandClass.usesSymbol = false ∧ ∃ p, commandBody i st = .ok p) := by
  cases i with
  | pbSwap | rfSwap | process => exact .inl ⟨rfl, _, rfl⟩
  | rotFwd k | rotBwd k =>
    exact .inl ⟨rfl, _, withRotor_some (List.getElem?_eq_getElem (hrotor k rfl)) _⟩
  | rotStep k => exact .inr ⟨rfl, _, withRotor_some (List.getElem?_eq_getElem (hrotor k rfl)) _⟩
  | engStep => exact .inr ⟨rfl, _, rfl⟩

theorem commandBody_of_bad_symbol {i : Instr} {st : Store} (hrotor : ∀ k, i.rotorIndex = some k → k < st.rotors.length)
    (huses : i.mnemonic.operandClass.usesSymbol = true) (hbad : NotOneLetter i.symbolOperand.1 i.symbolOperand.2) :
    commandBody i st = .error .invalidInput := by
  rcases commandBody_after_rotorCheck hrotor with ⟨-, f, hb⟩ | ⟨hnone, -⟩
  · exact hb.trans (withSym_error _ hbad)
  · rw [huses] at hnone
    cases hnone

/-- Settles O19: `execute` checks decode first, the skeleton CFGST next, and a command its rotor index before its symbol. -/
theorem firstCauseInPriorityOrderIsReported : Obligations.FirstCauseInPriorityOrderIsReported := by
  refine fun cw s => ⟨fun hd => ?_, fun i hd => ?_⟩
  · rw [execute_of_reject hd, State.raise_illegalCommand]
  · rw [execute_of_decode hd]
    refine ⟨fun hst => exec_unconfigured hst i, fun st hst =>
      ⟨fun k hi hk => exec_of_rotorIndex hi hst hk, fun hrotor huses hbad => ?_⟩⟩
    rw [exec_of_commandBody_error hst (commandBody_of_bad_symbol hrotor huses hbad)]
    rfl

/-! ### No other error -/

/-- With both operand checks passed a command succeeds, whatever the tables hold (R177, log 8). -/
theorem commandBody_ok_of_operands {i : Instr} {st : Store} (hrotor : ∀ k, i.rotorIndex = some k → k < st.rotors.length)
    (hsym : i.mnemonic.operandClass.usesSymbol = true → ¬ NotOneLetter i.symbolOperand.1 i.symbolOperand.2) :
    ∃ p, commandBody i st = .ok p := by
  rcases commandBody_after_rotorCheck hrotor with ⟨huses, f, hb⟩ | ⟨-, hok⟩
  · rcases checkSym_cases i.symbolOperand.1 i.symbolOperand.2 with ⟨x, hcnt, hchar, -⟩ | ⟨hbad, -⟩
    · rw [hcnt, hchar, withSym_sym] at hb
      exact ⟨f x, hb⟩
    · exact absurd hbad (hsym huses)
  · exact hok

/-- Settles O20: the body of the command succeeds, and the word of a reply has STATUS 0. -/
theorem commandsWithoutACauseOfErrorSucceed : Obligations.CommandsWithoutACauseOfErrorSucceed := by
  intro cw s i st hd hst hrotor hsym
  obtain ⟨⟨st', r⟩, hb⟩ := commandBody_ok_of_operands hrotor hsym
  refine ⟨s.complete st' r, r.word, ?_, s.complete_answer st' r, statusField_word r⟩
  rw [execute_of_decode hd, exec_eq_runCommand, runCommand_ok hst hb]

end Sys2Proof.Machine
end

section
/-! Reset and hazards (70_reset_and_hazards.md): the checks by position and the record reset accepts, what it loads, the
invariant every access keeps, and the record built from seeds. -/

open Sys2Proof.Claims

namespace Sys2Proof.Machine

/-! ### A reset presented next -/

theorem step_reset {s : State} {c : Cfg} {rest : List Access} (h : s.hostQueue = .reset c :: rest) :
    step s = .next (applyReset c { s with hostQueue := rest }) := by
  rw [step_cons h, performAccess_reset]

/-- The whole state after a reset with a valid record (R202). -/
theorem applyReset_of_valid {c : Cfg} (h : c.Valid) (s : State) :
    applyReset c s = { cfgst := .ready c.load, hostQueue := s.hostQueue, answer := resetAnswered 0 } := by
  rw [applyReset, if_pos h]
  rfl

/-- The whole state after a reset with any other record (R203). -/
theorem applyReset_of_not_valid {c : Cfg} (h : ¬ c.Valid) (s : State) :
    applyReset c s = { cfgst := .unconfigured, hostQueue := s.hostQueue, answer := resetAnswered 2 } := by
  rw [applyReset, if_neg h]
  rfl

@[simp] theorem applyReset_hostQueue (c : Cfg) (s : State) : (applyReset c s).hostQueue = s.hostQueue := by
  unfold applyReset
  split <;> rfl

/-- Settles O33: reset reads of the state before it the host's queue alone (R204). -/
theorem resetForgetsTheStateBefore : Obligations.ResetForgetsTheStateBefore := by
  intro s s' c rest hq hq'
  rw [step_reset hq, step_reset hq']
  exact congrArg Host.Outcome.next ((applyReset_eq_with_hostQueue c _ _).trans
    (applyReset_eq_with_hostQueue c { s' with hostQueue := rest } { s' with hostQueue := rest }).symm)

/-! ### The invariant -/

theorem State.inv_iff {s : State} : s.Inv ↔ ∀ st, s.cfgst = .ready st → st.Wf := by
  unfold State.Inv
  split <;> simp [*]

theorem applyReset_inv (c : Cfg) (s : State) : (applyReset c s).Inv := by
  by_cases hc : c.Valid
  · rw [applyReset_of_valid hc]
    exact Cfg.load_wf hc
  · rw [applyReset_of_not_valid hc]
    exact State.inv_of_unconfigured rfl

/-- A command word leaves the stores or writes offsets alone, of which the invariant does not speak (R23, R207). -/
theorem execute_keeps_inv {cw : Word} {s t : State} (h : execute cw s = .next t) (hinv : s.Inv) : t.Inv := by
  rcases execute_cases h with ⟨e, rfl⟩ | ⟨i, st, st', r, -, hst, hb, rfl⟩
  · exact hinv
  · exact wf_of_sameWiring (commandBody_sameWiring hb) (State.inv_iff.1 hinv st hst)

/-- Settles O35: a command keeps the wiring, a reset establishes the invariant afresh, and power-on leaves no stores. -/
theorem everyStepKeepsTheInvariant : Obligations.EveryStepKeepsTheInvariant := by
  intro s t hinv hstep
  rcases step_cases hstep with ⟨-, rfl⟩ | ⟨cw, rest, -, hx⟩ | ⟨c, rest, -, rfl⟩ | ⟨rest, -, rfl⟩
  · exact hinv
  · exact execute_keeps_inv hx hinv
  · exact applyReset_inv c _
  · exact State.inv_of_unconfigured (applyPowerOn_cfgst _)

/-! ### Every access completes but unserialised use -/

theorem execute_next_hostQueue (cw : Word) (s : State) : ∃ t, execute cw s = .next t ∧ t.hostQueue = s.hostQueue := by
  obtain ⟨t, -, ht, -⟩ := execute_answers cw s
  refine ⟨t, ht, ?_⟩
  rcases execute_cases ht with ⟨e, rfl⟩ | ⟨_, _, _, _, -, -, -, rfl⟩ <;> rfl

/-- Settles O26: each access but unserialised use answers a next state and writes no queue (R220, R224; logs 2, 4, 6). -/
theorem stepStopsForUnserialisedUseAlone : Obligations.StepStopsForUnserialisedUseAlone := by
  intro s
  rcases hq : s.hostQueue with _ | ⟨a, rest⟩
  · exact .inl ⟨s, step_nil hq, hq, nofun⟩
  · rw [step_cons hq]
    cases a with
    | command cw =>
      obtain ⟨t, ht, htq⟩ := execute_next_hostQueue cw { s with hostQueue := rest }
      exact .inl ⟨t, ht, htq, nofun⟩
    | reset c => exact .inl ⟨_, performAccess_reset c _, applyReset_hostQueue c _, nofun⟩
    | powerOn => exact .inl ⟨_, performAccess_powerOn _, applyPowerOn_hostQueue _, nofun⟩
    | unserialised => exact .inr ⟨performAccess_unserialised _, rfl⟩

/-! ### The checks by position -/

theorem pairwise_iff_getElem? {α : Type} {R : α → α → Prop} {l : List α} :
    l.Pairwise R ↔ ∀ (i j : Nat) (x y : α), i < j → l[i]? = some x → l[j]? = some y → R x y := by
  rw [List.pairwise_iff_getElem]
  refine ⟨fun h i j x y hij hx hy => ?_, fun h i j hi hj hij =>
    h i j _ _ hij (List.getElem?_eq_getElem hi) (List.getElem?_eq_getElem hj)⟩
  obtain ⟨hi, rfl⟩ := List.getElem?_eq_some_iff.1 hx
  obtain ⟨hj, rfl⟩ := List.getElem?_eq_some_iff.1 hy
  exact h i j hi hj hij

/-- The numbers in all pairs are distinct exactly where those in each pair are and no two pairs share one. -/
theorem nodup_pairMembers_iff {ps : List (Int × Int)} : (pairMembers ps).Nodup ↔ (∀ p ∈ ps, p.1 ≠ p.2) ∧
    ps.Pairwise fun p q => p.1 ≠ q.1 ∧ p.1 ≠ q.2 ∧ p.2 ≠ q.1 ∧ p.2 ≠ q.2 := by
  rw [pairMembers, List.nodup_flatMap]
  refine and_congr (by simp) (List.Pairwise.iff fun p q => ?_)
  simp [Function.onFun, List.disjoint_left, and_assoc]

theorem pairsOk_iff {ps : List (Int × Int)} : PairsOk ps ↔ IsPairing ps := by
  rw [PairsOk, IsPairing, nodup_pairMembers_iff, ← pairwise_iff_getElem?]
  constructor
  · rintro ⟨hmem, hdiff⟩
    refine ⟨fun p hp => ?_, fun p hp => ?_, hdiff⟩ <;> obtain ⟨hamin, hamax, hbmin, hbmax, hne⟩ := hmem p hp
    · exact ⟨⟨hamin, hamax⟩, ⟨hbmin, hbmax⟩, hne⟩
    · exact hne
  · rintro ⟨hmem, -, hdiff⟩
    refine ⟨fun p hp => ?_, hdiff⟩
    obtain ⟨⟨hamin, hamax⟩, ⟨hbmin, hbmax⟩, hne⟩ := hmem p hp
    exact ⟨hamin, hamax, hbmin, hbmax, hne⟩

theorem checksPass_iff {c : Cfg} : ChecksPass c ↔ c.Valid := by
  have hnodup (t : List Int) : t.Nodup ↔
      ∀ (i j : Nat) (x y : Int), i < j → t[i]? = some x → t[j]? = some y → x ≠ y := pairwise_iff_getElem?
  simp only [ChecksPass, Cfg.Valid, pairsOk_iff, Cfg.tablesOk, IsPermutationTable, hnodup]
  rfl

/-- Settles O30: the checks by position are those reset makes (R203, R205). -/
theorem resetAcceptsExactlyTheValidRecords : Obligations.ResetAcceptsExactlyTheValidRecords := by
  intro s c rest hq
  refine ⟨_, step_reset hq, applyReset_hostQueue c _, fun hc => ?_, fun hc => ?_⟩
  · rw [applyReset_of_valid (checksPass_iff.1 hc)]
    exact ⟨⟨_, rfl⟩, rfl⟩
  · rw [applyReset_of_not_valid (mt checksPass_iff.2 hc)]
    exact ⟨rfl, rfl⟩

/-! ### The pair map -/

theorem toIdx_val {n : Int} (h : IsIndex n) : ((toIdx n).val : Int) = n := by
  simp only [toIdx]
  omega

@[simp] theorem toIdx_idx (i : Idx) : toIdx (i.val : Int) = i := by
  apply Fin.ext
  simp [toIdx, Nat.mod_eq_of_lt i.isLt]

theorem mem_map_toIdx_iff {ps : List (Int × Int)} (h : IsPairing ps) {i : Idx} :
    i ∈ (pairMembers ps).map toIdx ↔ (i.val : Int) ∈ pairMembers ps := by
  rw [List.mem_map]
  constructor
  · rintro ⟨x, hx, rfl⟩
    rwa [toIdx_val (isIndex_of_mem_pairMembers h hx)]
  · exact fun hi => ⟨_, hi, toIdx_idx i⟩

theorem isPairMap_mapOf {ps : List (Int × Int)} (h : IsPairing ps) : IsPairMap ps (mapOf ps) := by
  simp only [IsPairMap, mapOf, lookup_tableOf]
  refine ⟨fun a b hab => ?_, fun i hi => partnerIn_of_notMem ?_⟩
  · obtain ⟨-, hfst, hsnd⟩ := partnerIn_of_mem (nodup_map_toIdx_pairMembers h) hab
    simp only [toIdx_idx] at hfst hsnd
    exact ⟨hfst, hsnd⟩
  · rw [mem_map_toIdx_iff h, mem_pairMembers_iff]
    rintro ⟨p, hp, hfst | hsnd⟩
    · exact (hi p hp).1 hfst.symm
    · exact (hi p hp).2 hsnd.symm

theorem table_ext {t t' : Table} (h : ∀ i, lookup t i = lookup t' i) : t = t' :=
  Vector.ext fun i hi => h ⟨i, hi⟩

/-- The pairs determine the map: an index is a member of one of them, or its own partner (R206). -/
theorem eq_mapOf_of_isPairMap {ps : List (Int × Int)} (h : IsPairing ps) {M : Table} (hM : IsPairMap ps M) :
    M = mapOf ps := by
  obtain ⟨hpair, hfixed⟩ := hM
  obtain ⟨hpair', hfixed'⟩ := isPairMap_mapOf h
  refine table_ext fun i => ?_
  by_cases hi : (i.val : Int) ∈ pairMembers ps
  · obtain ⟨p, hp, hip⟩ := mem_pairMembers_iff.1 hi
    obtain ⟨hidx₁, hidx₂, -⟩ := h.1 p hp
    have hidx : (((toIdx p.1).val : Int), ((toIdx p.2).val : Int)) ∈ ps := by rwa [toIdx_val hidx₁, toIdx_val hidx₂]
    obtain ⟨hfst, hsnd⟩ := hpair _ _ hidx
    obtain ⟨hfst', hsnd'⟩ := hpair' _ _ hidx
    rcases hip with hip | hip
    · rw [← toIdx_idx i, hip, hfst, hfst']
    · rw [← toIdx_idx i, hip, hsnd, hsnd']
  · have hno (p) (hp : p ∈ ps) : p.1 ≠ (i.val : Int) ∧ p.2 ≠ (i.val : Int) :=
      ⟨fun e => hi (mem_pairMembers_iff.2 ⟨p, hp, .inl e.symm⟩), fun e => hi (mem_pairMembers_iff.2 ⟨p, hp, .inr e.symm⟩)⟩
    rw [hfixed i hno, hfixed' i hno]

/-- What a map of pairs says of one pair it says of the pair turned round, so lists of the same pairs have the same maps. -/
theorem isPairMap_of_same_pairs {ps qs : List (Int × Int)} (h : ∀ p, p ∈ qs ∨ p.swap ∈ qs ↔ p ∈ ps ∨ p.swap ∈ ps)
    {M : Table} (hM : IsPairMap qs M) : IsPairMap ps M := by
  obtain ⟨hpair, hfixed⟩ := hM
  refine ⟨fun a b hab => ?_, fun i hi => hfixed i fun p hp => ?_⟩
  · rcases (h _).2 (.inl hab) with hq | hq
    · exact hpair a b hq
    · exact (hpair b a hq).symm
  · rcases (h p).1 (.inl hp) with hp' | hp'
    · exact hi p hp'
    · exact (hi p.swap hp').symm

/-- Settles O32: the pairs determine the map, and lists of the same pairs ask the same of it (R206). -/
theorem pairMapDependsOnThePairsAlone : Obligations.PairMapDependsOnThePairsAlone := by
  intro ps hps
  rw [pairsOk_iff] at hps
  exact ⟨isPairMap_mapOf hps, fun qs hqs hsame =>
    eq_mapOf_of_isPairMap hps (isPairMap_of_same_pairs hsame (isPairMap_mapOf (pairsOk_iff.1 hqs)))⟩

/-- The indices that are not their own partners are the members of the pairs, two for each (R207). -/
theorem filter_mapOf_length {ps : List (Int × Int)} (h : IsPairing ps) :
    ((List.finRange 26).filter fun i => lookup (mapOf ps) i != i).length = 2 * ps.length := by
  have hperm : ((List.finRange 26).filter fun i => lookup (mapOf ps) i != i).Perm ((pairMembers ps).map toIdx) := by
    rw [List.perm_ext_iff_of_nodup ((List.nodup_finRange 26).filter _) (nodup_map_toIdx_pairMembers h)]
    intro i
    simp only [List.mem_filter, List.mem_finRange, true_and, bne_iff_ne, mapOf, lookup_tableOf]
    exact ⟨fun hne => by_contra fun hi => hne (partnerIn_of_notMem hi), partnerIn_ne h⟩
  rw [hperm.length_eq, List.length_map, pairMembers_length]

/-! ### What a valid record loads -/

theorem Cfg.load_rotors_getElem? {c : Cfg} {k : Nat} {t : List Int} {o : Int} (ht : c.table[k]? = some t)
    (ho : c.shift[k]? = some o) : c.load.rotors[k]? = some { table := loadTable t, ofs := toIdx o } :=
  List.getElem?_zipWith_eq_some.2 ⟨t, o, ht, ho, rfl⟩

/-- Settles O31: the checked integers are the indices loaded, and the pair lists' maps the plugboard and reflector (R202,
R206). -/
theorem validResetLoadsTheRecord : Obligations.ValidResetLoadsTheRecord := by
  intro s c rest hq hc
  have hstep := step_reset hq
  rw [applyReset_of_valid (checksPass_iff.1 hc)] at hstep
  obtain ⟨hcount, htables, hshifts, ⟨-, hplug⟩, -, hrefl⟩ := checksPass_iff.1 hc
  refine ⟨c.load, hstep, Cfg.load_rotors_length hcount, fun k t o ht ho => ?_,
    isPairMap_mapOf hplug, isPairMap_mapOf hrefl⟩
  refine ⟨_, Cfg.load_rotors_getElem? ht ho, toIdx_val (hshifts o (List.mem_of_getElem? ho)), fun i x hx => ?_⟩
  obtain ⟨-, hidx, -⟩ := htables t (List.mem_of_getElem? ht)
  rw [lookup_loadTable hx, toIdx_val (hidx x (List.mem_of_getElem? hx))]

/-- Settles O34: the stores loaded meet R207, and each plugboard pair moves its two members. -/
theorem validResetEstablishesTheStoreInvariants : Obligations.ValidResetEstablishesTheStoreInvariants := by
  intro c s hvalid
  have hready := applyReset_cfgst_of_valid hvalid s
  obtain ⟨-, htables, hplug, hrefl, hfree⟩ := Cfg.load_wf hvalid
  obtain ⟨-, -, -, ⟨-, hpairing⟩, -⟩ := hvalid
  exact ⟨c.load, hready, htables, hplug, hrefl, hfree, filter_mapOf_length hpairing⟩

/-! ### The record built from seeds -/

theorem SeedCfg.build_error {S : SeedCfg} (h : S.pairCount < 0 ∨ 13 < S.pairCount) (g : Int → Idx → Idx) :
    S.build g = .error .invalidConfiguration := if_pos h

/-- One table of the record, entry by entry (R201). -/
def tableEntries (f : Idx → Idx) : List Int := (List.finRange 26).map fun i => ((f i).val : Int)

/-- The record a build with a pair count in range gives (R201). -/
def SeedCfg.record (g : Int → Idx → Idx) (S : SeedCfg) : Cfg where
  nrot := S.rotors.length
  table := S.rotors.map fun r => tableEntries (g r.seed)
  shift := S.rotors.map RotorSeed.shift
  refl := pairsFromPerm (g S.reflectorSeed) 13
  plug := pairsFromPerm (g S.plugSeed) S.pairCount.toNat

theorem SeedCfg.build_ok {S : SeedCfg} (hmin : 0 ≤ S.pairCount) (hmax : S.pairCount ≤ 13) (g : Int → Idx → Idx) :
    S.build g = .ok (S.record g) := by
  have hrange : ¬ (S.pairCount < 0 ∨ (Config.pairMax : Int) < S.pairCount) := by
    simp only [Config.pairMax]; omega
  exact if_neg hrange

@[simp] theorem pairsFromPerm_length (f : Idx → Idx) (p : Nat) : (pairsFromPerm f p).length = p := by
  simp [pairsFromPerm]

/-- Pair j is of the entries 2j and 2j + 1 (R201). -/
theorem pairsFromPerm_getElem? (f : Idx → Idx) {p j : Nat} (hj : j < p) {a b : Idx} (ha : a.val = 2 * j)
    (hb : b.val = 2 * j + 1) : (pairsFromPerm f p)[j]? = some (((f a).val : Int), ((f b).val : Int)) := by
  have ha' : toIdx (2 * (j : Int)) = a := by rw [← toIdx_idx a]; congr 1; omega
  have hb' : toIdx (2 * (j : Int) + 1) = b := by rw [← toIdx_idx b]; congr 1; omega
  simp [pairsFromPerm, hj, ha', hb']

@[simp] theorem tableEntries_length (f : Idx → Idx) : (tableEntries f).length = 26 := by
  simp [tableEntries]

theorem tableEntries_getElem? (f : Idx → Idx) (i : Idx) :
    (tableEntries f)[i.val]? = some ((f i).val : Int) := by
  simp [tableEntries]

theorem SeedCfg.record_getElem? {S : SeedCfg} {k : Nat} {r : RotorSeed} (hr : S.rotors[k]? = some r)
    (g : Int → Idx → Idx) :
    (S.record g).shift[k]? = some r.shift ∧ (S.record g).table[k]? = some (tableEntries (g r.seed)) := by
  simp [SeedCfg.record, hr]

/-- Settles O37: the build's check of the pair count, and its lists entry by entry (R201). -/
theorem seedBuildGroupsTheGeneratedPermutation : Obligations.SeedBuildGroupsTheGeneratedPermutation := by
  refine fun g S => ⟨fun _ => rfl, fun h => SeedCfg.build_error h g, fun hmin hmax =>
    ⟨S.record g, SeedCfg.build_ok hmin hmax g, rfl, List.length_map .., List.length_map .., fun k r hr => ?_, ?_, ?_⟩⟩
  · obtain ⟨hshift, htable⟩ := SeedCfg.record_getElem? hr g
    exact ⟨hshift, _, htable, tableEntries_length _, tableEntries_getElem? _⟩
  · exact ⟨pairsFromPerm_length .., fun j a b hj => pairsFromPerm_getElem? _ hj⟩
  · refine ⟨?_, fun j a b hj => pairsFromPerm_getElem? _ (by omega)⟩
    rw [SeedCfg.record, pairsFromPerm_length, Int.toNat_of_nonneg hmin]

/-! ### Where GEN_PERM gives bijections -/

theorem entry_injective {f : Idx → Idx} (hf : Function.Injective f) : Function.Injective fun i => ((f i).val : Int) :=
  fun _ _ h => hf (Fin.ext (Int.ofNat_inj.1 h))

theorem isIndex_idx (i : Idx) : IsIndex (i.val : Int) := by omega

/-- The entries of an injection are distinct indices (R205 V2). -/
theorem isPermutationTable_tableEntries {f : Idx → Idx} (hf : Function.Injective f) :
    IsPermutationTable (tableEntries f) := by
  refine ⟨tableEntries_length f, fun x hx => ?_, (List.nodup_finRange 26).map (entry_injective hf)⟩
  obtain ⟨i, -, rfl⟩ := List.mem_map.1 hx
  exact isIndex_idx _

theorem exists_of_pairsFromPerm_getElem? {f : Idx → Idx} {p j : Nat} (hp : p ≤ 13) {q : Int × Int}
    (h : (pairsFromPerm f p)[j]? = some q) :
    ∃ a b : Idx, a.val = 2 * j ∧ b.val = 2 * j + 1 ∧ q = (((f a).val : Int), ((f b).val : Int)) := by
  obtain ⟨hlen, -⟩ := List.getElem?_eq_some_iff.1 h
  have hj : j < p := by rwa [pairsFromPerm_length] at hlen
  have hget := pairsFromPerm_getElem? f hj (a := ⟨2 * j, by omega⟩) (b := ⟨2 * j + 1, by omega⟩) rfl rfl
  exact ⟨_, _, rfl, rfl, Option.some.inj (h.symm.trans hget)⟩

/-- Pairs of the entries of an injection are a pairing: the positions 2j and 2j + 1 are all distinct (R207). -/
theorem isPairing_pairsFromPerm {f : Idx → Idx} (hf : Function.Injective f) {p : Nat} (hp : p ≤ 13) :
    IsPairing (pairsFromPerm f p) := by
  have hne {a b : Idx} (h : a.val ≠ b.val) : ((f a).val : Int) ≠ ((f b).val : Int) :=
    fun e => h (congrArg Fin.val (entry_injective hf e))
  rw [← pairsOk_iff]
  refine ⟨fun q hq => ?_, fun i j q q' hij hq hq' => ?_⟩
  · obtain ⟨j, hj⟩ := List.mem_iff_getElem?.1 hq
    obtain ⟨a, b, ha, hb, rfl⟩ := exists_of_pairsFromPerm_getElem? hp hj
    obtain ⟨hamin, hamax⟩ := isIndex_idx (f a)
    obtain ⟨hbmin, hbmax⟩ := isIndex_idx (f b)
    exact ⟨hamin, hamax, hbmin, hbmax, hne (by omega)⟩
  · obtain ⟨a, b, ha, hb, rfl⟩ := exists_of_pairsFromPerm_getElem? hp hq
    obtain ⟨a', b', ha', hb', rfl⟩ := exists_of_pairsFromPerm_getElem? hp hq'
    exact ⟨hne (by omega), hne (by omega), hne (by omega), hne (by omega)⟩

theorem SeedCfg.record_rotorCountOk {S : SeedCfg} (hpos : 1 ≤ S.rotors.length) (hmany : S.rotors.length ≤ 256)
    (g : Int → Idx → Idx) : (S.record g).rotorCountOk := by
  refine ⟨Int.ofNat_le.2 hpos, Int.ofNat_le.2 hmany, ?_, ?_⟩ <;> rw [SeedCfg.record, List.length_map]

/-- Settles O38: the generated entries are distinct indices, in the tables and in the pairs (R205, R207). -/
theorem seedBuildFromBijectionsIsValid : Obligations.SeedBuildFromBijectionsIsValid := by
  intro g S hinj hpos hmany hshift hmin hmax
  refine ⟨S.record g, SeedCfg.build_ok hmin hmax g, SeedCfg.record_rotorCountOk hpos hmany g, fun t ht => ?_, fun o ho => ?_,
    ⟨?_, ?_⟩, ?_, ?_⟩
  · obtain ⟨r, -, rfl⟩ := List.mem_map.1 ht
    exact isPermutationTable_tableEntries (hinj r.seed)
  · obtain ⟨r, hr, rfl⟩ := List.mem_map.1 ho
    exact hshift r hr
  · rw [SeedCfg.record, pairsFromPerm_length, Config.pairMax]
    omega
  · exact isPairing_pairsFromPerm (hinj S.plugSeed) (by omega)
  · exact pairsFromPerm_length ..
  · exact isPairing_pairsFromPerm (hinj S.reflectorSeed) le_rfl

end Sys2Proof.Machine
end
